-- ==== Sys2Proof/Word.lean ====
section
/-! DEFINITION. The two word sizes of the core (00_scope.md R6, R8). -/

namespace Sys2Proof

/-- A `u8`: data, the registers A, X, Y and S, the opcode and operand bytes (00_scope.md R8). -/
abbrev Byte := BitVec 8

/-- A `u16`: addresses and the program counter (00_scope.md R8). -/
abbrev Word := BitVec 16

end Sys2Proof
end

