-- ==== Sys2Proof/Syntax/Mode.lean ====
section
/-! DEFINITION. The addressing-mode variants (30_encoding.md R82) and the closed enumeration of mnemonics (30_encoding.md R91). -/

namespace Sys2Proof

/-- The thirteen addressing-mode variants, each carrying its already-fetched raw operand
(30_encoding.md R82, 10_state.md R28). -/
inductive Mode where
  | implicit
  | accumulator
  | immediate (op8 : Byte)
  | zeroPage (op8 : Byte)
  | zeroPageX (op8 : Byte)
  | zeroPageY (op8 : Byte)
  | relative (op8 : Byte)
  | indirectX (op8 : Byte)
  | indirectY (op8 : Byte)
  | absolute (op16 : Word)
  | absoluteX (op16 : Word)
  | absoluteY (op16 : Word)
  | indirect (op16 : Word)
  deriving DecidableEq, Repr

/-- A variant without its operand: what the opcode byte alone selects (30_encoding.md R80, R83). -/
inductive ModeKind where
  | implicit | accumulator | immediate | zeroPage | zeroPageX | zeroPageY | relative
  | indirectX | indirectY | absolute | absoluteX | absoluteY | indirect
  deriving DecidableEq, Repr

/-- The variant of a mode. -/
def Mode.kind : Mode → ModeKind
  | .implicit => .implicit
  | .accumulator => .accumulator
  | .immediate _ => .immediate
  | .zeroPage _ => .zeroPage
  | .zeroPageX _ => .zeroPageX
  | .zeroPageY _ => .zeroPageY
  | .relative _ => .relative
  | .indirectX _ => .indirectX
  | .indirectY _ => .indirectY
  | .absolute _ => .absolute
  | .absoluteX _ => .absoluteX
  | .absoluteY _ => .absoluteY
  | .indirect _ => .indirect

/-- The 56 mnemonics, "a closed enumeration of opcodes" (30_encoding.md R91). -/
inductive Mnemonic where
  | adc | and | asl | bcc | bcs | beq | bit | bmi | bne | bpl | brk | bvc | bvs | clc | cld | cli
  | clv | cmp | cpx | cpy | dec | dex | dey | eor | inc | inx | iny | jmp | jsr | lda | ldx | ldy
  | lsr | nop | ora | pha | php | pla | plp | rol | ror | rti | rts | sbc | sec | sed | sei | sta
  | stx | sty | tax | tay | tsx | txa | txs | tya
  deriving DecidableEq, Repr

end Sys2Proof
end

