-- ==== Sys2Proof/Syntax.lean ====
section
/-! DEFINITION. The instructions: one constructor per mnemonic of the opcode table, carrying its addressing mode where the mnemonic has more than the Implicit one, and one constructor for the undefined opcode bytes (30_encoding.md R85, R86, R91). -/

namespace Sys2Proof

/-- An instruction as fetch decodes it. The rows of one mnemonic differ in their mode only, and
"Execute dispatches on the mnemonic alone" (30_encoding.md R91), so the mode is the constructor's
argument. A mnemonic whose only mode is Implicit carries none (log entry 9). The fallback rows are
`undefinedOpcode`, which keeps its byte (30_encoding.md R86; log entry 8). -/
inductive Instr where
  -- Arithmetic and logic (41_arithmetic_logic.md R140 to R145)
  | adc (m : Mode)
  | sbc (m : Mode)
  | and (m : Mode)
  | ora (m : Mode)
  | eor (m : Mode)
  -- Shifts and rotates (42_shift_rotate.md R150 to R154)
  | asl (m : Mode)
  | lsr (m : Mode)
  | rol (m : Mode)
  | ror (m : Mode)
  -- Conditional branches (43_branch.md R160 to R168)
  | bcc (m : Mode)
  | bcs (m : Mode)
  | beq (m : Mode)
  | bmi (m : Mode)
  | bne (m : Mode)
  | bpl (m : Mode)
  | bvc (m : Mode)
  | bvs (m : Mode)
  -- Compares, bit test, increments, decrements (44_compare_incdec.md R170 to R180)
  | cmp (m : Mode)
  | cpx (m : Mode)
  | cpy (m : Mode)
  | bit (m : Mode)
  | inc (m : Mode)
  | dec (m : Mode)
  | inx
  | iny
  | dex
  | dey
  -- Jumps and subroutines (45_jump_subroutine.md R185 to R188)
  | jmp (m : Mode)
  | jsr (m : Mode)
  | rts
  -- Flag instructions and NOP (46_flag_nop.md R195 to R203)
  | clc
  | cld
  | cli
  | clv
  | sec
  | sed
  | sei
  | nop
  -- Loads, stores and transfers (47_load_store_transfer.md R210 to R222)
  | lda (m : Mode)
  | ldx (m : Mode)
  | ldy (m : Mode)
  | sta (m : Mode)
  | stx (m : Mode)
  | sty (m : Mode)
  | tax
  | tay
  | tsx
  | txa
  | txs
  | tya
  -- Stack and system (48_stack_system.md R230 to R236)
  | pha
  | php
  | pla
  | plp
  | brk
  | rti
  -- The fallback of an undefined opcode byte (30_encoding.md R86, 46_flag_nop.md R204)
  | undefinedOpcode (opcode : Byte)
  deriving DecidableEq, Repr

/-- The mnemonic of an instruction (10_state.md R28); the fallback's is NOP (30_encoding.md R86). -/
def Instr.mnemonic : Instr → Mnemonic
  | .adc _ => .adc
  | .sbc _ => .sbc
  | .and _ => .and
  | .ora _ => .ora
  | .eor _ => .eor
  | .asl _ => .asl
  | .lsr _ => .lsr
  | .rol _ => .rol
  | .ror _ => .ror
  | .bcc _ => .bcc
  | .bcs _ => .bcs
  | .beq _ => .beq
  | .bmi _ => .bmi
  | .bne _ => .bne
  | .bpl _ => .bpl
  | .bvc _ => .bvc
  | .bvs _ => .bvs
  | .cmp _ => .cmp
  | .cpx _ => .cpx
  | .cpy _ => .cpy
  | .bit _ => .bit
  | .inc _ => .inc
  | .dec _ => .dec
  | .inx => .inx
  | .iny => .iny
  | .dex => .dex
  | .dey => .dey
  | .jmp _ => .jmp
  | .jsr _ => .jsr
  | .rts => .rts
  | .clc => .clc
  | .cld => .cld
  | .cli => .cli
  | .clv => .clv
  | .sec => .sec
  | .sed => .sed
  | .sei => .sei
  | .nop => .nop
  | .lda _ => .lda
  | .ldx _ => .ldx
  | .ldy _ => .ldy
  | .sta _ => .sta
  | .stx _ => .stx
  | .sty _ => .sty
  | .tax => .tax
  | .tay => .tay
  | .tsx => .tsx
  | .txa => .txa
  | .txs => .txs
  | .tya => .tya
  | .pha => .pha
  | .php => .php
  | .pla => .pla
  | .plp => .plp
  | .brk => .brk
  | .rti => .rti
  | .undefinedOpcode _ => .nop

/-- The addressing mode of an instruction (10_state.md R28); the fallback's is Implicit (30_encoding.md R86). -/
def Instr.mode : Instr → Mode
  | .adc m => m
  | .sbc m => m
  | .and m => m
  | .ora m => m
  | .eor m => m
  | .asl m => m
  | .lsr m => m
  | .rol m => m
  | .ror m => m
  | .bcc m => m
  | .bcs m => m
  | .beq m => m
  | .bmi m => m
  | .bne m => m
  | .bpl m => m
  | .bvc m => m
  | .bvs m => m
  | .cmp m => m
  | .cpx m => m
  | .cpy m => m
  | .bit m => m
  | .inc m => m
  | .dec m => m
  | .inx => .implicit
  | .iny => .implicit
  | .dex => .implicit
  | .dey => .implicit
  | .jmp m => m
  | .jsr m => m
  | .rts => .implicit
  | .clc => .implicit
  | .cld => .implicit
  | .cli => .implicit
  | .clv => .implicit
  | .sec => .implicit
  | .sed => .implicit
  | .sei => .implicit
  | .nop => .implicit
  | .lda m => m
  | .ldx m => m
  | .ldy m => m
  | .sta m => m
  | .stx m => m
  | .sty m => m
  | .tax => .implicit
  | .tay => .implicit
  | .tsx => .implicit
  | .txa => .implicit
  | .txs => .implicit
  | .tya => .implicit
  | .pha => .implicit
  | .php => .implicit
  | .pla => .implicit
  | .plp => .implicit
  | .brk => .implicit
  | .rti => .implicit
  | .undefinedOpcode _ => .implicit

/-- The `Instruction` value fetch produces (10_state.md R28): mnemonic and mode (as `instr`), the base
cycle count and the page-cross flag of the decoded row. -/
structure Instruction where
  instr : Instr
  cycles : Nat
  pageCross : Bool
  deriving DecidableEq, Repr

end Sys2Proof
end

