-- ==== Sys2Proof/Decode.lean ====
section
/-! DEFINITION. The decode table (30_encoding.md R84, R85, R86), the decoder and the encoder, and the byte-order helpers both use. -/

namespace Sys2Proof

/-- `hi : lo`, the `u16` `hi * 256 + lo` (00_scope.md R8; 30_encoding.md R81). -/
def wordOf (hi lo : Byte) : Word := BitVec.ofNat 16 (hi.toNat * 256 + lo.toNat)

/-- `w[7:0]` (00_scope.md R8). -/
def loByte (w : Word) : Byte := BitVec.ofNat 8 w.toNat

/-- `w[15:8]` (00_scope.md R8). -/
def hiByte (w : Word) : Byte := BitVec.ofNat 8 (w.toNat / 256)

/-- A row of the decode table: the opcode byte and the tuple it maps to (30_encoding.md R84). -/
structure OpcodeRow where
  opcode : Byte
  mnemonic : Mnemonic
  kind : ModeKind
  cycles : Nat
  pageCross : Bool
  deriving DecidableEq, Repr

/-- ADC (R141). -/
def rowsAdc : List OpcodeRow :=
  [⟨0x61, .adc, .indirectX, 6, false⟩,
   ⟨0x65, .adc, .zeroPage, 3, false⟩,
   ⟨0x69, .adc, .immediate, 2, false⟩,
   ⟨0x6D, .adc, .absolute, 4, false⟩,
   ⟨0x71, .adc, .indirectY, 5, true⟩,
   ⟨0x75, .adc, .zeroPageX, 4, false⟩,
   ⟨0x79, .adc, .absoluteY, 4, true⟩,
   ⟨0x7D, .adc, .absoluteX, 4, true⟩]

/-- AND (R143). -/
def rowsAnd : List OpcodeRow :=
  [⟨0x21, .and, .indirectX, 6, false⟩,
   ⟨0x25, .and, .zeroPage, 3, false⟩,
   ⟨0x29, .and, .immediate, 2, false⟩,
   ⟨0x2D, .and, .absolute, 4, false⟩,
   ⟨0x31, .and, .indirectY, 5, true⟩,
   ⟨0x35, .and, .zeroPageX, 4, false⟩,
   ⟨0x39, .and, .absoluteY, 4, true⟩,
   ⟨0x3D, .and, .absoluteX, 4, true⟩]

/-- ASL (R151). -/
def rowsAsl : List OpcodeRow :=
  [⟨0x06, .asl, .zeroPage, 5, false⟩,
   ⟨0x0A, .asl, .accumulator, 2, false⟩,
   ⟨0x0E, .asl, .absolute, 6, false⟩,
   ⟨0x16, .asl, .zeroPageX, 6, false⟩,
   ⟨0x1E, .asl, .absoluteX, 7, false⟩]

/-- BCC (R161). -/
def rowsBcc : List OpcodeRow :=
  [⟨0x90, .bcc, .relative, 2, false⟩]

/-- BCS (R162). -/
def rowsBcs : List OpcodeRow :=
  [⟨0xB0, .bcs, .relative, 2, false⟩]

/-- BEQ (R163). -/
def rowsBeq : List OpcodeRow :=
  [⟨0xF0, .beq, .relative, 2, false⟩]

/-- BIT (R174). -/
def rowsBit : List OpcodeRow :=
  [⟨0x24, .bit, .zeroPage, 3, false⟩,
   ⟨0x2C, .bit, .absolute, 4, false⟩]

/-- BMI (R164). -/
def rowsBmi : List OpcodeRow :=
  [⟨0x30, .bmi, .relative, 2, false⟩]

/-- BNE (R165). -/
def rowsBne : List OpcodeRow :=
  [⟨0xD0, .bne, .relative, 2, false⟩]

/-- BPL (R166). -/
def rowsBpl : List OpcodeRow :=
  [⟨0x10, .bpl, .relative, 2, false⟩]

/-- BRK (R235). -/
def rowsBrk : List OpcodeRow :=
  [⟨0x00, .brk, .implicit, 7, false⟩]

/-- BVC (R167). -/
def rowsBvc : List OpcodeRow :=
  [⟨0x50, .bvc, .relative, 2, false⟩]

/-- BVS (R168). -/
def rowsBvs : List OpcodeRow :=
  [⟨0x70, .bvs, .relative, 2, false⟩]

/-- CLC (R195). -/
def rowsClc : List OpcodeRow :=
  [⟨0x18, .clc, .implicit, 2, false⟩]

/-- CLD (R196). -/
def rowsCld : List OpcodeRow :=
  [⟨0xD8, .cld, .implicit, 2, false⟩]

/-- CLI (R197). -/
def rowsCli : List OpcodeRow :=
  [⟨0x58, .cli, .implicit, 2, false⟩]

/-- CLV (R198). -/
def rowsClv : List OpcodeRow :=
  [⟨0xB8, .clv, .implicit, 2, false⟩]

/-- CMP (R171). -/
def rowsCmp : List OpcodeRow :=
  [⟨0xC1, .cmp, .indirectX, 6, false⟩,
   ⟨0xC5, .cmp, .zeroPage, 3, false⟩,
   ⟨0xC9, .cmp, .immediate, 2, false⟩,
   ⟨0xCD, .cmp, .absolute, 4, false⟩,
   ⟨0xD1, .cmp, .indirectY, 5, true⟩,
   ⟨0xD5, .cmp, .zeroPageX, 4, false⟩,
   ⟨0xD9, .cmp, .absoluteY, 4, true⟩,
   ⟨0xDD, .cmp, .absoluteX, 4, true⟩]

/-- CPX (R172). -/
def rowsCpx : List OpcodeRow :=
  [⟨0xE0, .cpx, .immediate, 2, false⟩,
   ⟨0xE4, .cpx, .zeroPage, 3, false⟩,
   ⟨0xEC, .cpx, .absolute, 4, false⟩]

/-- CPY (R173). -/
def rowsCpy : List OpcodeRow :=
  [⟨0xC0, .cpy, .immediate, 2, false⟩,
   ⟨0xC4, .cpy, .zeroPage, 3, false⟩,
   ⟨0xCC, .cpy, .absolute, 4, false⟩]

/-- DEC (R176). -/
def rowsDec : List OpcodeRow :=
  [⟨0xC6, .dec, .zeroPage, 5, false⟩,
   ⟨0xCE, .dec, .absolute, 6, false⟩,
   ⟨0xD6, .dec, .zeroPageX, 6, false⟩,
   ⟨0xDE, .dec, .absoluteX, 7, false⟩]

/-- DEX (R179). -/
def rowsDex : List OpcodeRow :=
  [⟨0xCA, .dex, .implicit, 2, false⟩]

/-- DEY (R180). -/
def rowsDey : List OpcodeRow :=
  [⟨0x88, .dey, .implicit, 2, false⟩]

/-- EOR (R145). -/
def rowsEor : List OpcodeRow :=
  [⟨0x41, .eor, .indirectX, 6, false⟩,
   ⟨0x45, .eor, .zeroPage, 3, false⟩,
   ⟨0x49, .eor, .immediate, 2, false⟩,
   ⟨0x4D, .eor, .absolute, 4, false⟩,
   ⟨0x51, .eor, .indirectY, 5, true⟩,
   ⟨0x55, .eor, .zeroPageX, 4, false⟩,
   ⟨0x59, .eor, .absoluteY, 4, true⟩,
   ⟨0x5D, .eor, .absoluteX, 4, true⟩]

/-- INC (R175). -/
def rowsInc : List OpcodeRow :=
  [⟨0xE6, .inc, .zeroPage, 5, false⟩,
   ⟨0xEE, .inc, .absolute, 6, false⟩,
   ⟨0xF6, .inc, .zeroPageX, 6, false⟩,
   ⟨0xFE, .inc, .absoluteX, 7, false⟩]

/-- INX (R177). -/
def rowsInx : List OpcodeRow :=
  [⟨0xE8, .inx, .implicit, 2, false⟩]

/-- INY (R178). -/
def rowsIny : List OpcodeRow :=
  [⟨0xC8, .iny, .implicit, 2, false⟩]

/-- JMP (R185, R186). -/
def rowsJmp : List OpcodeRow :=
  [⟨0x4C, .jmp, .absolute, 3, false⟩,
   ⟨0x6C, .jmp, .indirect, 5, false⟩]

/-- JSR (R187). -/
def rowsJsr : List OpcodeRow :=
  [⟨0x20, .jsr, .absolute, 6, false⟩]

/-- LDA (R211). -/
def rowsLda : List OpcodeRow :=
  [⟨0xA1, .lda, .indirectX, 6, false⟩,
   ⟨0xA5, .lda, .zeroPage, 3, false⟩,
   ⟨0xA9, .lda, .immediate, 2, false⟩,
   ⟨0xAD, .lda, .absolute, 4, false⟩,
   ⟨0xB1, .lda, .indirectY, 5, true⟩,
   ⟨0xB5, .lda, .zeroPageX, 4, false⟩,
   ⟨0xB9, .lda, .absoluteY, 4, true⟩,
   ⟨0xBD, .lda, .absoluteX, 4, true⟩]

/-- LDX (R212). -/
def rowsLdx : List OpcodeRow :=
  [⟨0xA2, .ldx, .immediate, 2, false⟩,
   ⟨0xA6, .ldx, .zeroPage, 3, false⟩,
   ⟨0xAE, .ldx, .absolute, 4, false⟩,
   ⟨0xB6, .ldx, .zeroPageY, 4, false⟩,
   ⟨0xBE, .ldx, .absoluteY, 4, true⟩]

/-- LDY (R213). -/
def rowsLdy : List OpcodeRow :=
  [⟨0xA0, .ldy, .immediate, 2, false⟩,
   ⟨0xA4, .ldy, .zeroPage, 3, false⟩,
   ⟨0xAC, .ldy, .absolute, 4, false⟩,
   ⟨0xB4, .ldy, .zeroPageX, 4, false⟩,
   ⟨0xBC, .ldy, .absoluteX, 4, true⟩]

/-- LSR (R152). -/
def rowsLsr : List OpcodeRow :=
  [⟨0x46, .lsr, .zeroPage, 5, false⟩,
   ⟨0x4A, .lsr, .accumulator, 2, false⟩,
   ⟨0x4E, .lsr, .absolute, 6, false⟩,
   ⟨0x56, .lsr, .zeroPageX, 6, false⟩,
   ⟨0x5E, .lsr, .absoluteX, 7, false⟩]

/-- NOP (R203). -/
def rowsNop : List OpcodeRow :=
  [⟨0xEA, .nop, .implicit, 2, false⟩]

/-- ORA (R144). -/
def rowsOra : List OpcodeRow :=
  [⟨0x01, .ora, .indirectX, 6, false⟩,
   ⟨0x05, .ora, .zeroPage, 3, false⟩,
   ⟨0x09, .ora, .immediate, 2, false⟩,
   ⟨0x0D, .ora, .absolute, 4, false⟩,
   ⟨0x11, .ora, .indirectY, 5, true⟩,
   ⟨0x15, .ora, .zeroPageX, 4, false⟩,
   ⟨0x19, .ora, .absoluteY, 4, true⟩,
   ⟨0x1D, .ora, .absoluteX, 4, true⟩]

/-- PHA (R230). -/
def rowsPha : List OpcodeRow :=
  [⟨0x48, .pha, .implicit, 3, false⟩]

/-- PHP (R231). -/
def rowsPhp : List OpcodeRow :=
  [⟨0x08, .php, .implicit, 3, false⟩]

/-- PLA (R232). -/
def rowsPla : List OpcodeRow :=
  [⟨0x68, .pla, .implicit, 4, false⟩]

/-- PLP (R233). -/
def rowsPlp : List OpcodeRow :=
  [⟨0x28, .plp, .implicit, 4, false⟩]

/-- ROL (R153). -/
def rowsRol : List OpcodeRow :=
  [⟨0x26, .rol, .zeroPage, 5, false⟩,
   ⟨0x2A, .rol, .accumulator, 2, false⟩,
   ⟨0x2E, .rol, .absolute, 6, false⟩,
   ⟨0x36, .rol, .zeroPageX, 6, false⟩,
   ⟨0x3E, .rol, .absoluteX, 7, false⟩]

/-- ROR (R154). -/
def rowsRor : List OpcodeRow :=
  [⟨0x66, .ror, .zeroPage, 5, false⟩,
   ⟨0x6A, .ror, .accumulator, 2, false⟩,
   ⟨0x6E, .ror, .absolute, 6, false⟩,
   ⟨0x76, .ror, .zeroPageX, 6, false⟩,
   ⟨0x7E, .ror, .absoluteX, 7, false⟩]

/-- RTI (R236). -/
def rowsRti : List OpcodeRow :=
  [⟨0x40, .rti, .implicit, 6, false⟩]

/-- RTS (R188). -/
def rowsRts : List OpcodeRow :=
  [⟨0x60, .rts, .implicit, 6, false⟩]

/-- SBC (R142). -/
def rowsSbc : List OpcodeRow :=
  [⟨0xE1, .sbc, .indirectX, 6, false⟩,
   ⟨0xE5, .sbc, .zeroPage, 3, false⟩,
   ⟨0xE9, .sbc, .immediate, 2, false⟩,
   ⟨0xED, .sbc, .absolute, 4, false⟩,
   ⟨0xF1, .sbc, .indirectY, 5, true⟩,
   ⟨0xF5, .sbc, .zeroPageX, 4, false⟩,
   ⟨0xF9, .sbc, .absoluteY, 4, true⟩,
   ⟨0xFD, .sbc, .absoluteX, 4, true⟩]

/-- SEC (R199). -/
def rowsSec : List OpcodeRow :=
  [⟨0x38, .sec, .implicit, 2, false⟩]

/-- SED (R200). -/
def rowsSed : List OpcodeRow :=
  [⟨0xF8, .sed, .implicit, 2, false⟩]

/-- SEI (R201). -/
def rowsSei : List OpcodeRow :=
  [⟨0x78, .sei, .implicit, 2, false⟩]

/-- STA (R214). -/
def rowsSta : List OpcodeRow :=
  [⟨0x81, .sta, .indirectX, 6, false⟩,
   ⟨0x85, .sta, .zeroPage, 3, false⟩,
   ⟨0x8D, .sta, .absolute, 4, false⟩,
   ⟨0x91, .sta, .indirectY, 6, false⟩,
   ⟨0x95, .sta, .zeroPageX, 4, false⟩,
   ⟨0x99, .sta, .absoluteY, 5, false⟩,
   ⟨0x9D, .sta, .absoluteX, 5, false⟩]

/-- STX (R215). -/
def rowsStx : List OpcodeRow :=
  [⟨0x86, .stx, .zeroPage, 3, false⟩,
   ⟨0x8E, .stx, .absolute, 4, false⟩,
   ⟨0x96, .stx, .zeroPageY, 4, false⟩]

/-- STY (R216). -/
def rowsSty : List OpcodeRow :=
  [⟨0x84, .sty, .zeroPage, 3, false⟩,
   ⟨0x8C, .sty, .absolute, 4, false⟩,
   ⟨0x94, .sty, .zeroPageX, 4, false⟩]

/-- TAX (R217). -/
def rowsTax : List OpcodeRow :=
  [⟨0xAA, .tax, .implicit, 2, false⟩]

/-- TAY (R218). -/
def rowsTay : List OpcodeRow :=
  [⟨0xA8, .tay, .implicit, 2, false⟩]

/-- TSX (R219). -/
def rowsTsx : List OpcodeRow :=
  [⟨0xBA, .tsx, .implicit, 2, false⟩]

/-- TXA (R220). -/
def rowsTxa : List OpcodeRow :=
  [⟨0x8A, .txa, .implicit, 2, false⟩]

/-- TXS (R221). -/
def rowsTxs : List OpcodeRow :=
  [⟨0x9A, .txs, .implicit, 2, false⟩]

/-- TYA (R222). -/
def rowsTya : List OpcodeRow :=
  [⟨0x98, .tya, .implicit, 2, false⟩]

/-- The 151 defined opcode bytes, in the order of 30_encoding.md R85. -/
def opcodeTable : List OpcodeRow := List.flatten
  [rowsAdc, rowsAnd, rowsAsl, rowsBcc, rowsBcs, rowsBeq, rowsBit, rowsBmi,
   rowsBne, rowsBpl, rowsBrk, rowsBvc, rowsBvs, rowsClc, rowsCld, rowsCli,
   rowsClv, rowsCmp, rowsCpx, rowsCpy, rowsDec, rowsDex, rowsDey, rowsEor,
   rowsInc, rowsInx, rowsIny, rowsJmp, rowsJsr, rowsLda, rowsLdx, rowsLdy,
   rowsLsr, rowsNop, rowsOra, rowsPha, rowsPhp, rowsPla, rowsPlp, rowsRol,
   rowsRor, rowsRti, rowsRts, rowsSbc, rowsSec, rowsSed, rowsSei, rowsSta,
   rowsStx, rowsSty, rowsTax, rowsTay, rowsTsx, rowsTxa, rowsTxs, rowsTya]

/-- The first row of a list whose opcode byte, as a number, is `n`. -/
def findRow : List OpcodeRow → Nat → Option OpcodeRow
  | [], _ => none
  | r :: rest, n => bif Nat.beq r.opcode.toNat n then some r else findRow rest n

/-- The row of a defined opcode byte (30_encoding.md R85). -/
def definedRow (opc : Byte) : Option OpcodeRow := findRow opcodeTable opc.toNat

/-- The decode table, total over the 256 bytes: an undefined byte maps to
`(NOP, Implicit, cycles = 0, page_cross = false)` (30_encoding.md R84, R86). -/
def rowOf (opc : Byte) : OpcodeRow := (definedRow opc).getD ⟨opc, .nop, .implicit, 0, false⟩

/-- The operand bytes a mode carries (30_encoding.md R80). -/
def ModeKind.operandWidth : ModeKind → Nat
  | .implicit | .accumulator => 0
  | .immediate | .zeroPage | .zeroPageX | .zeroPageY | .relative | .indirectX | .indirectY => 1
  | .absolute | .absoluteX | .absoluteY | .indirect => 2

/-- The mode with its operand filled in from the byte at `pc + 1` and the byte at `pc + 2`
(30_encoding.md R81, R83). -/
def ModeKind.withOperand (k : ModeKind) (lo hi : Byte) : Mode :=
  match k with
  | .implicit => .implicit
  | .accumulator => .accumulator
  | .immediate => .immediate lo
  | .zeroPage => .zeroPage lo
  | .zeroPageX => .zeroPageX lo
  | .zeroPageY => .zeroPageY lo
  | .relative => .relative lo
  | .indirectX => .indirectX lo
  | .indirectY => .indirectY lo
  | .absolute => .absolute (wordOf hi lo)
  | .absoluteX => .absoluteX (wordOf hi lo)
  | .absoluteY => .absoluteY (wordOf hi lo)
  | .indirect => .indirect (wordOf hi lo)

/-- The operand bytes of a mode, in ascending address order (30_encoding.md R81). -/
def Mode.operandBytes : Mode → List Byte
  | .implicit | .accumulator => []
  | .immediate o | .zeroPage o | .zeroPageX o | .zeroPageY o | .relative o | .indirectX o
  | .indirectY o => [o]
  | .absolute w | .absoluteX w | .absoluteY w | .indirect w => [loByte w, hiByte w]

/-- The instruction of a mnemonic with a mode (30_encoding.md R91). -/
def Mnemonic.instr (mn : Mnemonic) (m : Mode) : Instr :=
  match mn with
  | .adc => .adc m
  | .sbc => .sbc m
  | .and => .and m
  | .ora => .ora m
  | .eor => .eor m
  | .asl => .asl m
  | .lsr => .lsr m
  | .rol => .rol m
  | .ror => .ror m
  | .bcc => .bcc m
  | .bcs => .bcs m
  | .beq => .beq m
  | .bmi => .bmi m
  | .bne => .bne m
  | .bpl => .bpl m
  | .bvc => .bvc m
  | .bvs => .bvs m
  | .cmp => .cmp m
  | .cpx => .cpx m
  | .cpy => .cpy m
  | .bit => .bit m
  | .inc => .inc m
  | .dec => .dec m
  | .inx => .inx
  | .iny => .iny
  | .dex => .dex
  | .dey => .dey
  | .jmp => .jmp m
  | .jsr => .jsr m
  | .rts => .rts
  | .clc => .clc
  | .cld => .cld
  | .cli => .cli
  | .clv => .clv
  | .sec => .sec
  | .sed => .sed
  | .sei => .sei
  | .nop => .nop
  | .lda => .lda m
  | .ldx => .ldx m
  | .ldy => .ldy m
  | .sta => .sta m
  | .stx => .stx m
  | .sty => .sty m
  | .tax => .tax
  | .tay => .tay
  | .tsx => .tsx
  | .txa => .txa
  | .txs => .txs
  | .tya => .tya
  | .pha => .pha
  | .php => .php
  | .pla => .pla
  | .plp => .plp
  | .brk => .brk
  | .rti => .rti

/-- The instruction of an opcode byte and the operand bytes after it: the row's mnemonic and mode, or
the fallback of an undefined byte (30_encoding.md R83, R86). -/
def instrOf (opc lo hi : Byte) : Instr :=
  match definedRow opc with
  | some r => r.mnemonic.instr (r.kind.withOperand lo hi)
  | none => .undefinedOpcode opc

/-- Why a byte list is no instruction: only because it ends too early; no byte is rejected
(30_encoding.md R84). -/
inductive DecodeError where
  /-- There is no opcode byte. -/
  | noBytes
  /-- The list ends before the operand bytes the opcode asks for. -/
  | truncated (opcode : Byte)
  deriving DecidableEq, Repr

/-- Decodes the instruction at the head of a byte list and gives the bytes after it
(30_encoding.md R80, R81, R83); a list that ends too early is rejected by name (log entry 14). -/
def decode : List Byte → Except DecodeError (Instr × List Byte)
  | [] => .error .noBytes
  | opc :: rest =>
    match (rowOf opc).kind.operandWidth, rest with
    | 0, rest => .ok (instrOf opc 0 0, rest)
    | 1, lo :: rest => .ok (instrOf opc lo 0, rest)
    | 2, lo :: hi :: rest => .ok (instrOf opc lo hi, rest)
    | _, _ => .error (.truncated opc)

/-- The opcode byte of a mnemonic in a mode, by the same table read the other way
(30_encoding.md R85). -/
def opcodeOf (mn : Mnemonic) (k : ModeKind) : Option Byte :=
  (opcodeTable.find? fun r => r.mnemonic == mn && r.kind == k).map OpcodeRow.opcode

/-- The bytes of an instruction (30_encoding.md R80, R81, R85); `none` where the table has no row
for it. -/
def encode : Instr → Option (List Byte)
  | .undefinedOpcode b => if (definedRow b).isSome then none else some [b]
  | i => (opcodeOf i.mnemonic i.mode.kind).map fun opc => opc :: i.mode.operandBytes

/-- The three bytes of a table word: bit 0 is the least significant bit of the first byte, and every
bit from `nbits` up is 0. -/
def tableBytes (nbits w : Nat) : List Byte :=
  let v := w % 2 ^ nbits
  [BitVec.ofNat 8 v, BitVec.ofNat 8 (v / 256), BitVec.ofNat 8 (v / 65536)]

/-- The instruction the decoder reads from a word numbered as `opcode_table.json` numbers it. -/
def decodeTableWord (nbits w : Nat) : Option Instr :=
  match decode (tableBytes nbits w) with
  | .ok (i, _) => some i
  | .error _ => none

end Sys2Proof
end

