-- ==== Sys2Proof/Config.lean ====
section
/-! DEFINITION. What the implementation fixes (00_scope.md R6), the vocabulary of the memory interface (20_memory.md R51), and the one free value: what the bus answers. -/

namespace Sys2Proof

/-- The two byte operations of the memory interface, `get_byte` and `set_byte` (20_memory.md R51). -/
inductive AccessKind where
  | read
  | write
  deriving DecidableEq, Repr

/-- One call the core made on the memory interface (20_memory.md R51, R57): for a read, `value` is
what the bus answered; for a write, the byte handed over. -/
structure Access where
  kind : AccessKind
  addr : Word
  value : Byte
  deriving DecidableEq, Repr

/-- `RESET_VECTOR` (00_scope.md R6, 70_reset_and_hazards.md R280). -/
def Config.resetVector : Word := 0xFFFC

/-- `STACK_BASE`, the stack page's first address (00_scope.md R6, 10_state.md R22). -/
def Config.stackBase : Word := 0x0100

/-- `BRK_VECTOR` (00_scope.md R6, 48_stack_system.md R235). -/
def Config.brkVector : Word := 0xFFFE

/-- FREE VALUE: what the bus answers to a read of an address that is not flat RAM. It may depend on
the whole history of accesses (newest first) and on a choice the core does not control
(20_memory.md R66, 92_eei_decisions.md D12; log entry 4). It has no body, so nothing can be proved
of its value. -/
opaque Config.busAnswer : List Access → Word → Byte

end Sys2Proof
end

