-- ==== Sys2Proof/Machine/State.lean ====
section
/-! DEFINITION. The state of the core (10_state.md R20), the environment behind its memory interface (20_memory.md R66), the reasons a step can stop, power-on and the state after reset. -/

namespace Sys2Proof.Machine

/-- The seven status flags, "independent booleans, not fields of a stored byte" (10_state.md R24). -/
structure Flags where
  /-- carry -/
  c : Bool
  /-- zero -/
  z : Bool
  /-- interrupt-disable; masks nothing (60_exceptions.md R254) -/
  i : Bool
  /-- decimal; no arithmetic reads it (41_arithmetic_logic.md R140) -/
  d : Bool
  /-- break; no instruction writes or reads it (10_state.md R27) -/
  b : Bool
  /-- overflow -/
  v : Bool
  /-- sign -/
  n : Bool
  deriving DecidableEq, Repr

/-- An address window, both ends included, that is not flat RAM (20_memory.md R66). -/
structure Window where
  first : Word
  last : Word
  deriving DecidableEq, Repr

/-- The `Bus` parameter as plain data (20_memory.md R66; log entry 4): flat RAM, except in the
device windows, where every read is answered by the free value `Config.busAnswer`. With no window it
is the instance `FlatRAM`; with the whole address space in a window it is an arbitrary bus. -/
structure Bus where
  /-- The flat RAM: addresses strictly rising, no address listed with the byte an unlisted one reads
  as (log entry 3). -/
  ram : List Host.Cell
  /-- The windows whose answers are the bus's own. -/
  devices : List Window
  /-- Every access the core made, newest first (20_memory.md R57; log entry 5). -/
  history : List Access
  deriving DecidableEq, Repr

/-- The complete state of the core (10_state.md R20), the bus it was constructed with, and the cycle
count execute last returned. -/
structure State where
  /-- Program counter; between steps the address of the next opcode byte (10_state.md R23). -/
  pc : Word
  /-- Accumulator (10_state.md R21). -/
  a : Byte
  /-- Index register X (10_state.md R21). -/
  x : Byte
  /-- Index register Y (10_state.md R21). -/
  y : Byte
  /-- Stack pointer S (10_state.md R22). -/
  sp : Byte
  /-- The status flags (10_state.md R24). -/
  flags : Flags
  /-- The instruction latch IR, empty until a fetch (10_state.md R28, R30). -/
  ir : Option Instruction
  /-- The memory interface's other side (20_memory.md R66). -/
  bus : Bus
  /-- The cycle count the latest execute returned (70_reset_and_hazards.md R287; log entry 6). -/
  cycleOut : Option Nat
  deriving DecidableEq, Repr

/-- The core's two error classes (60_exceptions.md R250). A fault ends the run (R251). -/
inductive Fault where
  /-- Raised by the resolver, the branches, JMP and JSR for a mode they cannot service, before any
  write of the execute (60_exceptions.md R251). Safe: the spec itself stops the core here. -/
  | invalidAddressingMode (mnemonic : Mnemonic) (mode : Mode)
  /-- Raised by no instruction: every mnemonic has a handler (60_exceptions.md R252). Safe. -/
  | unimplemented (mnemonic : Mnemonic)
  deriving DecidableEq, Repr

/-- Refusals. -/
inductive Refusal where
  /-- An instruction without a meaning would be rejected by name in `exec`. Raised by nothing: every
  instruction has its meaning. Safe. -/
  | notModelled (mnemonic : String)
  deriving DecidableEq, Repr

/-- `INIT`: the power-on value of every register and flag, an argument of the model
(10_state.md R30, 92_eei_decisions.md D10). -/
structure Init where
  pc : Word
  a : Byte
  x : Byte
  y : Byte
  sp : Byte
  flags : Flags
  deriving DecidableEq, Repr

/-- The core as constructed with an `INIT` and a bus, before `reset()`: the latch is empty
(10_state.md R30). -/
def State.powerOn (init : Init) (bus : Bus) : State :=
  { pc := init.pc, a := init.a, x := init.x, y := init.y, sp := init.sp, flags := init.flags,
    ir := none, bus := bus, cycleOut := none }

/-- The `INIT` the reset state is built from: the spec gives none (DESIGN CHOICE, log entry 1). -/
def Init.zero : Init :=
  { pc := 0, a := 0, x := 0, y := 0, sp := 0, flags := ⟨false, false, false, false, false, false, false⟩ }

/-- A `FlatRAM` with nothing listed and no access made yet (log entries 3 and 4). -/
def Bus.blank : Bus := { ram := [], devices := [], history := [] }

/-- The machine right after power-on with `Init.zero` and one `reset()` (70_reset_and_hazards.md
R280): `pc` is the word at 0xFFFC, which with nothing listed is 0x0000 (log entry 2); the two reads of
the vector stand in the history. -/
def State.reset : State :=
  { pc := 0, a := 0, x := 0, y := 0, sp := 0,
    flags := ⟨false, false, false, false, false, false, false⟩, ir := none,
    bus := { ram := [], devices := [],
             history := [⟨.read, 0xFFFD, 0⟩, ⟨.read, 0xFFFC, 0⟩] },
    cycleOut := none }

end Sys2Proof.Machine
end

