-- ==== Sys2Proof/Machine/Flags.lean ====
section
/-! DEFINITION. Every flag computation of the spec: the common update SetZN, the packed view P, and the arithmetic results with their carries and overflows. -/

namespace Sys2Proof.Machine

/-- `SetZN(v)`: Z is "result is 0", N is bit 7 of the result (10_state.md R25). -/
def setZN (v : Byte) (s : State) : State :=
  { s with flags := { s.flags with z := v == 0, n := v.getLsbD 7 } }

/-- A bit as a number, the value of a flag in arithmetic (00_scope.md R8: `bool` is 0 or 1). -/
def bitNat (b : Bool) : Nat := if b then 1 else 0

/-- `PackP(b4)`: bits 7 to 0 are N, V, 1, `b4`, D, I, Z, C (10_state.md R27). -/
def packP (b4 : Bool) (f : Flags) : Byte :=
  BitVec.ofNat 8 (128 * bitNat f.n + 64 * bitNat f.v + 32 + 16 * bitNat b4 + 8 * bitNat f.d +
    4 * bitNat f.i + 2 * bitNat f.z + bitNat f.c)

/-- `UnpackP(v)`: N, V, D, I, Z, C from bits 7, 6, 3, 2, 1, 0; bits 5 and 4 are ignored and B is
unchanged (10_state.md R27). -/
def unpackP (v : Byte) (f : Flags) : Flags :=
  { f with n := v.getLsbD 7, v := v.getLsbD 6, d := v.getLsbD 3, i := v.getLsbD 2,
           z := v.getLsbD 1, c := v.getLsbD 0 }

/-- The 8-bit result of an arithmetic instruction with its carry and its overflow. -/
structure AluResult where
  value : Byte
  carry : Bool
  overflow : Bool
  deriving DecidableEq, Repr

/-- "sign-bit XOR trick": V for operands `p`, `q` and result `r` (41_arithmetic_logic.md R141, with
`accumulator_after` read as the accumulator before, 90_conflicts.md C2). -/
def overflowOf (p q r : Byte) : Bool := (p ^^^ r) &&& (q ^^^ r) &&& 0x80 != 0

/-- ADC's sum: the carry-out is detected twice, at the operand add and at the carry-in add, and the
two are OR-ed; D is not read (41_arithmetic_logic.md R140, R141). -/
def addWithCarry (a m : Byte) (c : Bool) : AluResult :=
  let s1 := a.toNat + m.toNat
  let s2 := s1 % 256 + bitNat c
  let r := BitVec.ofNat 8 s2
  { value := r, carry := decide (s1 > 0xFF) || decide (s2 > 0xFF), overflow := overflowOf m a r }

/-- SBC's difference: the sum of A, the one's complement of the operand and the carry
(41_arithmetic_logic.md R142). -/
def subWithCarry (a m : Byte) (c : Bool) : AluResult :=
  let n := m ^^^ 0xFF
  let t := a.toNat + n.toNat + bitNat c
  let r := BitVec.ofNat 8 t
  { value := r, carry := decide (t > 0xFF), overflow := overflowOf n a r }

/-- The flags of a compare of `reg` with `m`: C is `reg >= m` unsigned, Z is equality, N is bit 7 of
the 8-bit difference (44_compare_incdec.md R170). -/
def compareFlags (reg m : Byte) (f : Flags) : Flags :=
  { f with c := decide (m.toNat ≤ reg.toNat), z := reg == m, n := (reg - m).getLsbD 7 }

/-- The flags of BIT: Z from A and the byte, N and V from bits 7 and 6 of the byte
(44_compare_incdec.md R174). -/
def bitFlags (a m : Byte) (f : Flags) : Flags :=
  { f with z := a &&& m == 0, n := m.getLsbD 7, v := m.getLsbD 6 }

/-- ASL: `r = (v << 1) mod 256`, carry out is bit 7 (42_shift_rotate.md R151). -/
def shiftLeft (v : Byte) (_ : Bool) : Byte × Bool := (v <<< 1, v.getLsbD 7)

/-- LSR: `r = v >> 1`, carry out is bit 0 (42_shift_rotate.md R152). -/
def shiftRight (v : Byte) (_ : Bool) : Byte × Bool := (v >>> 1, v.getLsbD 0)

/-- ROL: the old carry enters bit 0, bit 7 leaves (42_shift_rotate.md R153). -/
def rotateLeft (v : Byte) (c : Bool) : Byte × Bool :=
  ((v <<< 1) ||| BitVec.ofNat 8 (bitNat c), v.getLsbD 7)

/-- ROR: the old carry enters bit 7, bit 0 leaves (42_shift_rotate.md R154). -/
def rotateRight (v : Byte) (c : Bool) : Byte × Bool :=
  ((v >>> 1) ||| BitVec.ofNat 8 (128 * bitNat c), v.getLsbD 0)

end Sys2Proof.Machine
end

