-- ==== Sys2Proof/Machine/Ops.lean ====
section
/-! DEFINITION. The named operations over memory and registers: flat RAM, the bus, the memory interface, the stack, reset, trap entry and trap return. -/

namespace Sys2Proof.Machine

/-! ### Flat RAM -/

/-- What an address that is not listed reads as (DESIGN CHOICE, log entry 3). -/
def unlistedByte : Byte := 0

/-- The byte of flat RAM at an address. -/
def ramRead : List Host.Cell → Nat → Byte
  | [], _ => unlistedByte
  | (k, w) :: rest, a => if k = a then w else ramRead rest a

/-- A cell in front of a list, unless its byte is what an unlisted address reads as. -/
def consCell (a : Nat) (v : Byte) (rest : List Host.Cell) : List Host.Cell :=
  if v = unlistedByte then rest else (a, v) :: rest

/-- Replaces the byte at an address, keeping the canonical form. -/
def ramWrite : List Host.Cell → Nat → Byte → List Host.Cell
  | [], a, v => consCell a v []
  | (k, w) :: rest, a, v =>
    if a < k then consCell a v ((k, w) :: rest)
    else if a = k then consCell a v rest
    else (k, w) :: ramWrite rest a v

/-- The cells from an address `lo` on are in canonical form: strictly rising, inside the 16-bit
address space (20_memory.md R50), none with the unlisted byte. -/
def ramWfFrom : Nat → List Host.Cell → Bool
  | _, [] => true
  | lo, (k, w) :: rest =>
    decide (lo ≤ k) && decide (k < 65536) && decide (w ≠ unlistedByte) && ramWfFrom (k + 1) rest

/-- The canonical form of the memory. -/
def Memory.wf (ram : List Host.Cell) : Bool := ramWfFrom 0 ram

/-! ### The bus (20_memory.md R51, R66) -/

/-- The address lies in the window. -/
def Window.contains (w : Window) (a : Word) : Bool := decide (w.first ≤ a) && decide (a ≤ w.last)

/-- The address is not flat RAM. -/
def Bus.isDevice (b : Bus) (a : Word) : Bool := b.devices.any fun w => w.contains a

/-- What `get_byte` answers now: the byte of flat RAM, or the bus's own answer in a device window. -/
def Bus.answer (b : Bus) (a : Word) : Byte :=
  if b.isDevice a then Config.busAnswer b.history a else ramRead b.ram a.toNat

/-- The bus after a `get_byte` answered `v` (20_memory.md R57). -/
def Bus.afterRead (b : Bus) (a : Word) (v : Byte) : Bus :=
  { b with history := ⟨.read, a, v⟩ :: b.history }

/-- The bus after `set_byte`: flat RAM holds the byte; what a device does with it is its own affair
and shows in its later answers (20_memory.md R57, R66). -/
def Bus.afterWrite (b : Bus) (a : Word) (v : Byte) : Bus :=
  { b with ram := if b.isDevice a then b.ram else ramWrite b.ram a.toNat v,
           history := ⟨.write, a, v⟩ :: b.history }

/-! ### The memory interface as the core uses it (20_memory.md R51 to R53) -/

/-- A value read, and the state after the reads. -/
structure Read (α : Type) where
  value : α
  state : State

/-- What a byte read of `a` would answer in this state. -/
def State.peek (s : State) (a : Word) : Byte := s.bus.answer a

/-- The byte of flat RAM at `a`. -/
def State.ramByte (s : State) (a : Word) : Byte := ramRead s.bus.ram a.toNat

/-- `MemRead(a, 1)` (20_memory.md R51). -/
def readByte (a : Word) (s : State) : Read Byte :=
  ⟨s.peek a, { s with bus := s.bus.afterRead a (s.peek a) }⟩

/-- `MemWrite(a, 1, v)` (20_memory.md R51). -/
def writeByte (a : Word) (v : Byte) (s : State) : State :=
  { s with bus := s.bus.afterWrite a v }

/-- `MemRead(a, 2)`: low byte at `a`, then high byte at `(a + 1) mod 65536` (20_memory.md R52). -/
def readWord (a : Word) (s : State) : Read Word :=
  let lo := readByte a s
  let hi := readByte (a + 1) lo.state
  ⟨wordOf hi.value lo.value, hi.state⟩

/-- `MemWrite(a, 2, v)`: low byte at `a`, then high byte at `(a + 1) mod 65536`; no instruction uses
it (20_memory.md R53). -/
def writeWord (a : Word) (v : Word) (s : State) : State :=
  writeByte (a + 1) (hiByte v) (writeByte a (loByte v) s)

/-! ### Widening and pages (00_scope.md R9) -/

/-- `zext_16(v)`. -/
def zext16 (v : Byte) : Word := BitVec.ofNat 16 v.toNat

/-- `sext_16(v)`: `v` if `v < 128`, else `v + 0xFF00`. -/
def sext16 (v : Byte) : Word := if v.toNat < 128 then zext16 v else zext16 v + 0xFF00

/-- `page(a)`, the 256-byte page number. -/
def page (a : Word) : Byte := hiByte a

/-! ### The stack (20_memory.md R65) -/

/-- The address S designates (10_state.md R22). -/
def stackAddr (sp : Byte) : Word := Config.stackBase + zext16 sp

/-- `Push(v)`: write at the address S designates, then decrement S modulo 256. -/
def push (v : Byte) (s : State) : State :=
  let t := writeByte (stackAddr s.sp) v s
  { t with sp := t.sp - 1 }

/-- `Pull()`: increment S modulo 256, then read at the address S designates. -/
def pull (s : State) : Read Byte :=
  readByte (stackAddr (s.sp + 1)) { s with sp := s.sp + 1 }

/-- A 16-bit value is pushed high byte first, so that it lies little-endian. -/
def pushWord (w : Word) (s : State) : State := push (loByte w) (push (hiByte w) s)

/-- A 16-bit value is pulled low byte first. -/
def pullWord (s : State) : Read Word :=
  let lo := pull s
  let hi := pull lo.state
  ⟨wordOf hi.value lo.value, hi.state⟩

/-! ### Reset, trap entry, trap return -/

/-- `reset()`: `pc` from the word at the reset vector, the latch emptied, nothing else
(70_reset_and_hazards.md R280). -/
def resetCore (s : State) : State :=
  let v := readWord Config.resetVector s
  { v.state with pc := v.value, ir := none }

/-- Trap entry: the return address and the packed flags with bit 4 set go onto the stack, then I is
set, then `pc` is loaded from the vector (60_exceptions.md R255, 48_stack_system.md R235). -/
def enterTrap (ret : Word) (s : State) : State :=
  let s1 := pushWord ret s
  let s2 := push (packP true s1.flags) s1
  let s3 := { s2 with flags := { s2.flags with i := true } }
  let v := readWord Config.brkVector s3
  { v.state with pc := v.value }

/-- Trap return: the flags from the stacked byte, then `pc` from the stacked address
(60_exceptions.md R256, 48_stack_system.md R236). -/
def returnFromTrap (s : State) : State :=
  let p := pull s
  let s1 := { p.state with flags := unpackP p.value p.state.flags }
  let w := pullWord s1
  { w.state with pc := w.value }

end Sys2Proof.Machine
end

