-- ==== Sys2Proof/Machine/Operands.lean ====
section
/-! DEFINITION. The address-mode resolver: EffAddr, ReadOperand, WriteOperand over the thirteen modes (40_address_resolver.md), and the shapes the handlers share. -/

namespace Sys2Proof.Machine

/-- The three outcomes of a step of this machine. -/
abbrev Out := Host.Outcome State Fault Refusal

/-- What `EffAddr` gives: the effective address, whether a page was crossed, and the state after the
pointer reads (40_address_resolver.md R121). -/
structure Resolved where
  addr : Word
  crossed : Bool
  state : State

/-- What `ReadOperand` gives: the operand byte, whether a page was crossed, and the state after the
reads (40_address_resolver.md R122). -/
structure Operand where
  value : Byte
  crossed : Bool
  state : State

/-- An index register added to a 16-bit base; the page is crossed when the high byte changes
(40_address_resolver.md R114, R115, R125). -/
def indexed (base : Word) (index : Byte) (s : State) : Resolved :=
  let ea := base + zext16 index
  ⟨ea, page ea != page base, s⟩

/-- `EffAddr(mode)` for a handler of `mn` (40_address_resolver.md R110 to R121). -/
def effAddr (mn : Mnemonic) (m : Mode) (s : State) : Except Fault Resolved :=
  match m with
  | .zeroPage o => .ok ⟨zext16 o, false, s⟩
  | .zeroPageX o => .ok ⟨zext16 (o + s.x), false, s⟩
  | .zeroPageY o => .ok ⟨zext16 (o + s.y), false, s⟩
  | .absolute w => .ok ⟨w, false, s⟩
  | .absoluteX w => .ok (indexed w s.x s)
  | .absoluteY w => .ok (indexed w s.y s)
  | .indirectX o =>
    let p := readWord (zext16 (o + s.x)) s
    .ok ⟨p.value, false, p.state⟩
  | .indirectY o =>
    let b := readWord (zext16 o) s
    .ok (indexed b.value b.state.y b.state)
  | .immediate _ | .accumulator | .implicit | .relative _ | .indirect _ =>
    .error (.invalidAddressingMode mn m)

/-- A byte read at a resolved address (40_address_resolver.md R122, its "otherwise" line). -/
def Resolved.load (r : Resolved) : Operand :=
  let v := readByte r.addr r.state
  ⟨v.value, r.crossed, v.state⟩

/-- `ReadOperand(mode)` (40_address_resolver.md R118, R119, R120, R122). -/
def readOperand (mn : Mnemonic) (m : Mode) (s : State) : Except Fault Operand :=
  match m with
  | .immediate o => .ok ⟨o, false, s⟩
  | .accumulator => .ok ⟨s.a, false, s⟩
  | _ =>
    match effAddr mn m s with
    | .ok r => .ok r.load
    | .error f => .error f

/-- `WriteOperand(mode, v)` (40_address_resolver.md R119, R123). -/
def writeOperand (mn : Mnemonic) (m : Mode) (v : Byte) (s : State) : Except Fault State :=
  match m with
  | .accumulator => .ok { s with a := v }
  | _ =>
    match effAddr mn m s with
    | .ok r => .ok (writeByte r.addr v r.state)
    | .error f => .error f

/-- `Cycles(I, crossed)` (70_reset_and_hazards.md R287). -/
def cyclesOf (ir : Instruction) (crossed : Bool) : Nat :=
  ir.cycles + if ir.pageCross && crossed then 1 else 0

/-- The end of execute: it returns the cycle count of the latched instruction
(70_reset_and_hazards.md R281, R287; log entry 11). -/
def complete (crossed : Bool) (s : State) : Out :=
  .next { s with cycleOut := s.ir.map fun ir => cyclesOf ir crossed }

/-- A handler that takes its operand by `ReadOperand` and then does `k`; the resolver's fault comes
before any write (60_exceptions.md R251). -/
def withOperand (mn : Mnemonic) (m : Mode) (s : State) (k : Byte → State → State) : Out :=
  match readOperand mn m s with
  | .ok r => complete r.crossed (k r.value r.state)
  | .error f => .fault f

/-- A handler that stores one byte by `WriteOperand` (47_load_store_transfer.md R210); it computes no
`crossed` of its own (70_reset_and_hazards.md R281; log entry 12). -/
def storeOperand (mn : Mnemonic) (m : Mode) (v : Byte) (s : State) : Out :=
  match writeOperand mn m v s with
  | .ok t => complete false t
  | .error f => .fault f

/-- One read of the effective address, then one write of the result to the same address, then `k` of
the old byte (42_shift_rotate.md R150, 44_compare_incdec.md R175, 20_memory.md R67). -/
def modifyMemory (mn : Mnemonic) (m : Mode) (s : State) (f : Byte → Byte)
    (k : Byte → State → State) : Out :=
  match effAddr mn m s with
  | .ok r =>
    let v := readByte r.addr r.state
    complete r.crossed (k v.value (writeByte r.addr (f v.value) v.state))
  | .error e => .fault e

end Sys2Proof.Machine
end

