-- ==== Sys2Proof/Machine/Arithmetic.lean ====
section
/-! DEFINITION. ADC, SBC, AND, ORA, EOR (41_arithmetic_logic.md). -/

namespace Sys2Proof.Machine

/-- Writes an arithmetic result: A, C, V, then Z and N (41_arithmetic_logic.md R141, R142). -/
def setArithmetic (r : AluResult) (s : State) : State :=
  setZN r.value { s with a := r.value, flags := { s.flags with c := r.carry, v := r.overflow } }

/-- Writes a register result to A, then Z and N (41_arithmetic_logic.md R143 to R145). -/
def setA (v : Byte) (s : State) : State := setZN v { s with a := v }

/-- ADC (41_arithmetic_logic.md R141). -/
def execAdc (m : Mode) (s : State) : Out :=
  withOperand .adc m s fun v t => setArithmetic (addWithCarry t.a v t.flags.c) t

/-- SBC (41_arithmetic_logic.md R142). -/
def execSbc (m : Mode) (s : State) : Out :=
  withOperand .sbc m s fun v t => setArithmetic (subWithCarry t.a v t.flags.c) t

/-- AND (41_arithmetic_logic.md R143). -/
def execAnd (m : Mode) (s : State) : Out := withOperand .and m s fun v t => setA (t.a &&& v) t

/-- ORA (41_arithmetic_logic.md R144). -/
def execOra (m : Mode) (s : State) : Out := withOperand .ora m s fun v t => setA (t.a ||| v) t

/-- EOR (41_arithmetic_logic.md R145). -/
def execEor (m : Mode) (s : State) : Out := withOperand .eor m s fun v t => setA (t.a ^^^ v) t

end Sys2Proof.Machine
end

