-- ==== Sys2Proof/Machine/Branch.lean ====
section
/-! DEFINITION. The eight conditional branches (43_branch.md). -/

namespace Sys2Proof.Machine

/-- `Branch(cond)`: when taken, the signed offset is added to the `pc` already past the branch; any
mode but Relative faults (43_branch.md R160). -/
def branchIf (mn : Mnemonic) (cond : Bool) (m : Mode) (s : State) : Out :=
  match m with
  | .relative o => complete false (if cond then { s with pc := s.pc + sext16 o } else s)
  | _ => .fault (.invalidAddressingMode mn m)

/-- BCC (43_branch.md R161). -/
def execBcc (m : Mode) (s : State) : Out := branchIf .bcc (!s.flags.c) m s

/-- BCS (43_branch.md R162). -/
def execBcs (m : Mode) (s : State) : Out := branchIf .bcs s.flags.c m s

/-- BEQ (43_branch.md R163). -/
def execBeq (m : Mode) (s : State) : Out := branchIf .beq s.flags.z m s

/-- BMI (43_branch.md R164). -/
def execBmi (m : Mode) (s : State) : Out := branchIf .bmi s.flags.n m s

/-- BNE (43_branch.md R165). -/
def execBne (m : Mode) (s : State) : Out := branchIf .bne (!s.flags.z) m s

/-- BPL (43_branch.md R166). -/
def execBpl (m : Mode) (s : State) : Out := branchIf .bpl (!s.flags.n) m s

/-- BVC (43_branch.md R167). -/
def execBvc (m : Mode) (s : State) : Out := branchIf .bvc (!s.flags.v) m s

/-- BVS (43_branch.md R168). -/
def execBvs (m : Mode) (s : State) : Out := branchIf .bvs s.flags.v m s

end Sys2Proof.Machine
end

