-- ==== Sys2Proof/Machine/Compare.lean ====
section
/-! DEFINITION. CMP, CPX, CPY, BIT, INC, DEC, INX, INY, DEX, DEY (44_compare_incdec.md). -/

namespace Sys2Proof.Machine

/-- `Compare(reg)`: only C, Z and N are written (44_compare_incdec.md R170). -/
def compareWith (reg m : Byte) (s : State) : State :=
  { s with flags := compareFlags reg m s.flags }

/-- CMP (44_compare_incdec.md R171). -/
def execCmp (m : Mode) (s : State) : Out := withOperand .cmp m s fun v t => compareWith t.a v t

/-- CPX (44_compare_incdec.md R172). -/
def execCpx (m : Mode) (s : State) : Out := withOperand .cpx m s fun v t => compareWith t.x v t

/-- CPY (44_compare_incdec.md R173). -/
def execCpy (m : Mode) (s : State) : Out := withOperand .cpy m s fun v t => compareWith t.y v t

/-- BIT (44_compare_incdec.md R174). -/
def execBit (m : Mode) (s : State) : Out :=
  withOperand .bit m s fun v t => { t with flags := bitFlags t.a v t.flags }

/-- INC (44_compare_incdec.md R175). -/
def execInc (m : Mode) (s : State) : Out :=
  modifyMemory .inc m s (fun v => v + 1) fun v t => setZN (v + 1) t

/-- DEC (44_compare_incdec.md R176). -/
def execDec (m : Mode) (s : State) : Out :=
  modifyMemory .dec m s (fun v => v - 1) fun v t => setZN (v - 1) t

/-- INX (44_compare_incdec.md R177). -/
def execInx (s : State) : Out := complete false (setZN (s.x + 1) { s with x := s.x + 1 })

/-- INY (44_compare_incdec.md R178). -/
def execIny (s : State) : Out := complete false (setZN (s.y + 1) { s with y := s.y + 1 })

/-- DEX (44_compare_incdec.md R179). -/
def execDex (s : State) : Out := complete false (setZN (s.x - 1) { s with x := s.x - 1 })

/-- DEY (44_compare_incdec.md R180). -/
def execDey (s : State) : Out := complete false (setZN (s.y - 1) { s with y := s.y - 1 })

end Sys2Proof.Machine
end

