-- ==== Sys2Proof/Machine/FlagOps.lean ====
section
/-! DEFINITION. CLC, CLD, CLI, CLV, SEC, SED, SEI, NOP and the fallback of an undefined opcode byte (46_flag_nop.md). -/

namespace Sys2Proof.Machine

/-- CLC (46_flag_nop.md R195). -/
def execClc (s : State) : Out := complete false { s with flags := { s.flags with c := false } }

/-- CLD (46_flag_nop.md R196). -/
def execCld (s : State) : Out := complete false { s with flags := { s.flags with d := false } }

/-- CLI (46_flag_nop.md R197). -/
def execCli (s : State) : Out := complete false { s with flags := { s.flags with i := false } }

/-- CLV (46_flag_nop.md R198). -/
def execClv (s : State) : Out := complete false { s with flags := { s.flags with v := false } }

/-- SEC (46_flag_nop.md R199). -/
def execSec (s : State) : Out := complete false { s with flags := { s.flags with c := true } }

/-- SED (46_flag_nop.md R200). -/
def execSed (s : State) : Out := complete false { s with flags := { s.flags with d := true } }

/-- SEI (46_flag_nop.md R201). -/
def execSei (s : State) : Out := complete false { s with flags := { s.flags with i := true } }

/-- NOP: writes nothing (46_flag_nop.md R203). -/
def execNop (s : State) : Out := complete false s

/-- The fallback of an undefined opcode byte: executes as NOP (46_flag_nop.md R204). -/
def execUndefinedOpcode (s : State) : Out := complete false s

end Sys2Proof.Machine
end

