-- ==== Sys2Proof/Machine/Jump.lean ====
section
/-! DEFINITION. JMP, JSR, RTS (45_jump_subroutine.md). -/

namespace Sys2Proof.Machine

/-- JMP: the operand itself, or the word at the operand address; any other mode faults
(45_jump_subroutine.md R185, R186). -/
def execJmp (m : Mode) (s : State) : Out :=
  match m with
  | .absolute w => complete false { s with pc := w }
  | .indirect w =>
    let p := readWord w s
    complete false { p.state with pc := p.value }
  | _ => .fault (.invalidAddressingMode .jmp m)

/-- JSR: pushes the address of its own last byte, high then low, and jumps; any mode but Absolute
faults (45_jump_subroutine.md R187). -/
def execJsr (m : Mode) (s : State) : Out :=
  match m with
  | .absolute w => complete false { pushWord (s.pc - 1) s with pc := w }
  | _ => .fault (.invalidAddressingMode .jsr m)

/-- RTS: pulls low, then high, and continues at that address plus 1 (45_jump_subroutine.md R188). -/
def execRts (s : State) : Out :=
  let w := pullWord s
  complete false { w.state with pc := w.value + 1 }

end Sys2Proof.Machine
end

