-- ==== Sys2Proof/Machine/LoadStore.lean ====
section
/-! DEFINITION. LDA, LDX, LDY, STA, STX, STY and the six register transfers (47_load_store_transfer.md). -/

namespace Sys2Proof.Machine

/-- LDA (47_load_store_transfer.md R211). -/
def execLda (m : Mode) (s : State) : Out :=
  withOperand .lda m s fun v t => setZN v { t with a := v }

/-- LDX (47_load_store_transfer.md R212). -/
def execLdx (m : Mode) (s : State) : Out :=
  withOperand .ldx m s fun v t => setZN v { t with x := v }

/-- LDY (47_load_store_transfer.md R213). -/
def execLdy (m : Mode) (s : State) : Out :=
  withOperand .ldy m s fun v t => setZN v { t with y := v }

/-- STA (47_load_store_transfer.md R214). -/
def execSta (m : Mode) (s : State) : Out := storeOperand .sta m s.a s

/-- STX (47_load_store_transfer.md R215). -/
def execStx (m : Mode) (s : State) : Out := storeOperand .stx m s.x s

/-- STY (47_load_store_transfer.md R216). -/
def execSty (m : Mode) (s : State) : Out := storeOperand .sty m s.y s

/-- TAX (47_load_store_transfer.md R217). -/
def execTax (s : State) : Out := complete false (setZN s.a { s with x := s.a })

/-- TAY (47_load_store_transfer.md R218). -/
def execTay (s : State) : Out := complete false (setZN s.a { s with y := s.a })

/-- TSX (47_load_store_transfer.md R219). -/
def execTsx (s : State) : Out := complete false (setZN s.sp { s with x := s.sp })

/-- TXA (47_load_store_transfer.md R220). -/
def execTxa (s : State) : Out := complete false (setZN s.x { s with a := s.x })

/-- TXS: the one transfer that writes no flag (47_load_store_transfer.md R221). -/
def execTxs (s : State) : Out := complete false { s with sp := s.x }

/-- TYA (47_load_store_transfer.md R222). -/
def execTya (s : State) : Out := complete false (setZN s.y { s with a := s.y })

end Sys2Proof.Machine
end

