-- ==== Sys2Proof/Machine/Shift.lean ====
section
/-! DEFINITION. ASL, LSR, ROL, ROR on the accumulator or a memory byte (42_shift_rotate.md). -/

namespace Sys2Proof.Machine

/-- `flag.C <- cout`, then `SetZN(r)` (42_shift_rotate.md R150). -/
def setShifted (r : Byte × Bool) (s : State) : State :=
  setZN r.1 { s with flags := { s.flags with c := r.2 } }

/-- `RMW(f)`: the byte is A in Accumulator mode, a memory byte otherwise
(42_shift_rotate.md R150). -/
def readModifyWrite (mn : Mnemonic) (f : Byte → Bool → Byte × Bool) (m : Mode) (s : State) : Out :=
  match m with
  | .accumulator => complete false (setShifted (f s.a s.flags.c) { s with a := (f s.a s.flags.c).1 })
  | _ =>
    modifyMemory mn m s (fun v => (f v s.flags.c).1) fun v t => setShifted (f v s.flags.c) t

/-- ASL (42_shift_rotate.md R151). -/
def execAsl (m : Mode) (s : State) : Out := readModifyWrite .asl shiftLeft m s

/-- LSR (42_shift_rotate.md R152). -/
def execLsr (m : Mode) (s : State) : Out := readModifyWrite .lsr shiftRight m s

/-- ROL (42_shift_rotate.md R153). -/
def execRol (m : Mode) (s : State) : Out := readModifyWrite .rol rotateLeft m s

/-- ROR (42_shift_rotate.md R154). -/
def execRor (m : Mode) (s : State) : Out := readModifyWrite .ror rotateRight m s

end Sys2Proof.Machine
end

