-- ==== Sys2Proof/Machine/Stack.lean ====
section
/-! DEFINITION. PHA, PHP, PLA, PLP, BRK, RTI (48_stack_system.md). -/

namespace Sys2Proof.Machine

/-- PHA (48_stack_system.md R230). -/
def execPha (s : State) : Out := complete false (push s.a s)

/-- PHP: pushes the packed flags with bits 5 and 4 set (48_stack_system.md R231). -/
def execPhp (s : State) : Out := complete false (push (packP true s.flags) s)

/-- PLA (48_stack_system.md R232). -/
def execPla (s : State) : Out :=
  let v := pull s
  complete false (setZN v.value { v.state with a := v.value })

/-- PLP (48_stack_system.md R233). -/
def execPlp (s : State) : Out :=
  let v := pull s
  complete false { v.state with flags := unpackP v.value v.state.flags }

/-- BRK: takes the trap with return address (address of BRK) + 2, which is the `pc` after fetch
plus 1 (48_stack_system.md R235, 60_exceptions.md R255). -/
def execBrk (s : State) : Out := complete false (enterTrap (s.pc + 1) s)

/-- RTI (48_stack_system.md R236, 60_exceptions.md R256). -/
def execRti (s : State) : Out := complete false (returnFromTrap s)

end Sys2Proof.Machine
end

