-- ==== Sys2Proof/Machine/Fetch.lean ====
section
/-! DEFINITION. Fetching an instruction (30_encoding.md R83), and placing one where the next fetch finds it. -/

namespace Sys2Proof.Machine

/-- The operand bytes of a format, read in ascending order from `at'`; a format without one leaves
its place 0 and reads nothing (30_encoding.md R81, R83). -/
def fetchOperand (width : Nat) (at' : Word) (s : State) : Read (Byte × Byte) :=
  match width with
  | 0 => ⟨(0, 0), s⟩
  | 1 =>
    let lo := readByte at' s
    ⟨(lo.value, 0), lo.state⟩
  | _ =>
    let lo := readByte at' s
    let hi := readByte (at' + 1) lo.state
    ⟨(lo.value, hi.value), hi.state⟩

/-- `fetch_next_instruction()`: opcode byte, operand bytes, then `pc` past the whole instruction and
the latch loaded (30_encoding.md R83). -/
def fetch (s : State) : Read Instr :=
  let opc := readByte s.pc s
  let row := rowOf opc.value
  let ops := fetchOperand row.kind.operandWidth (s.pc + 1) opc.state
  let i := instrOf opc.value ops.value.1 ops.value.2
  ⟨i, { ops.state with
        pc := s.pc + 1 + BitVec.ofNat 16 row.kind.operandWidth
        ir := some ⟨i, row.cycles, row.pageCross⟩ }⟩

/-- The three bytes stored at `a`, `a + 1`, `a + 2` of flat RAM by the world outside, with no access
of the core. -/
def placeBytes (ram : List Host.Cell) (a : Word) : List Byte → List Host.Cell
  | [] => ram
  | v :: rest => placeBytes (ramWrite ram a.toNat v) (a + 1) rest

end Sys2Proof.Machine
end

