-- ==== Sys2Proof/Machine/Step.lean ====
section
/-! DEFINITION. One step of the core: fetch, then execute (70_reset_and_hazards.md R281). -/

namespace Sys2Proof.Machine

/-- One step: `I <- fetch_next_instruction()`, then `execute_instruction(I)`
(70_reset_and_hazards.md R281). -/
def step (s : State) : Host.Outcome State Fault Refusal := exec (fetch s).value (fetch s).state

/-- The state with an instruction word placed where the next fetch reads: the three bytes at `pc`,
`pc + 1`, `pc + 2` of flat RAM, and no device window over them (log entry 10). -/
def State.withFetchWord (s : State) (nbits w : Nat) : State :=
  { s with bus := { s.bus with
      ram := placeBytes s.bus.ram s.pc (tableBytes nbits w)
      devices := s.bus.devices.filter fun win =>
        !(win.contains s.pc || win.contains (s.pc + 1) || win.contains (s.pc + 2)) } }

end Sys2Proof.Machine
end

