-- ==== Sys2Proof/Safety.lean ====
section
/-! DEFINITION. What a safe run is: no step of it faults or refuses (60_exceptions.md R251, R253). -/

namespace Sys2Proof.Safety

/-- The next step answers a next state. -/
def StepSafe (s : Machine.State) : Prop := ∃ t, Machine.step s = .next t

/-- The first `k` steps answer a next state: "a faulted core is never a final state of a run"
(60_exceptions.md R251). -/
def RunSafe (k : Nat) (s : Machine.State) : Prop := ∃ t, Host.Core.run core k s = .next t

/-- The states a caller can bring the core to: construction, `reset()` between steps, and steps
(00_scope.md R7, 70_reset_and_hazards.md R281, R289). -/
inductive Reachable (init : Machine.Init) (bus : Machine.Bus) : Machine.State → Prop where
  | powerOn : Reachable init bus (Machine.State.powerOn init bus)
  | reset {s : Machine.State} : Reachable init bus s → Reachable init bus (Machine.resetCore s)
  | step {s t : Machine.State} :
      Reachable init bus s → Machine.step s = .next t → Reachable init bus t

end Sys2Proof.Safety
end

