-- ==== Sys2Proof/WellFormed.lean ====
section
/-! DEFINITION. Which instructions fetch can produce (30_encoding.md R92), written from the mode lists of the instruction rules and from R87, not from the opcode table. -/

namespace Sys2Proof

/-- The modes that name a memory cell (40_address_resolver.md section 1; R121). -/
def Mode.isCell : Mode → Bool
  | .zeroPage _ | .zeroPageX _ | .zeroPageY _ | .absolute _ | .absoluteX _ | .absoluteY _
  | .indirectX _ | .indirectY _ => true
  | .immediate _ | .accumulator | .implicit | .relative _ | .indirect _ => false

/-- The modes the generic read serves (40_address_resolver.md R118, R119, R122). -/
def Mode.isSource : Mode → Bool
  | .immediate _ | .accumulator => true
  | m => m.isCell

/-- Every mode an instruction reads its operand through, where it has the full set (R140, R171, R211). -/
def readModes : List ModeKind :=
  [.immediate, .zeroPage, .zeroPageX, .absolute, .absoluteX, .absoluteY, .indirectX, .indirectY]

/-- The modes each mnemonic occurs with (30_encoding.md R92 and the "Modes" line of each rule). -/
def Mnemonic.modes : Mnemonic → List ModeKind
  | .adc | .sbc | .and | .ora | .eor | .cmp | .lda => readModes
  | .asl | .lsr | .rol | .ror => [.accumulator, .zeroPage, .zeroPageX, .absolute, .absoluteX]
  | .bcc | .bcs | .beq | .bmi | .bne | .bpl | .bvc | .bvs => [.relative]
  | .cpx | .cpy => [.immediate, .zeroPage, .absolute]
  | .bit => [.zeroPage, .absolute]
  | .inc | .dec => [.zeroPage, .zeroPageX, .absolute, .absoluteX]
  | .jmp => [.absolute, .indirect]
  | .jsr => [.absolute]
  | .ldx => [.immediate, .zeroPage, .zeroPageY, .absolute, .absoluteY]
  | .ldy => [.immediate, .zeroPage, .zeroPageX, .absolute, .absoluteX]
  | .sta => [.zeroPage, .zeroPageX, .absolute, .absoluteX, .absoluteY, .indirectX, .indirectY]
  | .stx => [.zeroPage, .zeroPageY, .absolute]
  | .sty => [.zeroPage, .zeroPageX, .absolute]
  | .brk | .clc | .cld | .cli | .clv | .dex | .dey | .inx | .iny | .nop | .pha | .php | .pla | .plp
  | .rti | .rts | .sec | .sed | .sei | .tax | .tay | .tsx | .txa | .txs | .tya => [.implicit]

/-- The undefined bytes with low two bits not `11` and low nibble not 2 (30_encoding.md R87). -/
def scatteredUndefined : List Byte :=
  [0x04, 0x0C, 0x14, 0x1C, 0x34, 0x3C, 0x44, 0x54, 0x5C, 0x64, 0x74, 0x7C, 0x80] ++
  [0x9C, 0xD4, 0xDC, 0xF4, 0xFC, 0x89, 0x9E, 0x1A, 0x3A, 0x5A, 0x7A, 0xDA, 0xFA]

/-- A byte is undefined (30_encoding.md R87, its "Equivalently" sentence): the low two bits are `11`,
or it is `x2` and not 0xA2, or it is one of the scattered ones. -/
def isUndefinedOpcode (b : Byte) : Bool :=
  b &&& 0x03 == 0x03 || (b &&& 0x0F == 0x02 && b != 0xA2) || scatteredUndefined.contains b

/-- The mode is one the mnemonic occurs with (30_encoding.md R92). -/
def Instr.modeOccurs (i : Instr) : Bool := i.mnemonic.modes.contains i.mode.kind

/-- A fallback instruction stands for an undefined byte (30_encoding.md R86, R87). -/
def Instr.opcodeIsUndefined : Instr → Bool
  | .undefinedOpcode b => isUndefinedOpcode b
  | _ => true

/-- Fetch can produce this instruction (30_encoding.md R92). -/
def Instr.wellFormed (i : Instr) : Bool := i.modeOccurs && i.opcodeIsUndefined

end Sys2Proof
end

