-- ==== Sys2Proof/Certificates/Slice0/Obligations.lean ====
section
/-! DEFINITION. The statements of the model, and the words they are written in. Nothing is proved here. -/

namespace Sys2Proof.Stated

open Sys2Proof Sys2Proof.Machine

/-! ### The words the statements are written in -/

/-- `Cycles(I, crossed)` of the latched instruction (70_reset_and_hazards.md R287). -/
def count (s : State) (crossed : Bool) : Option Nat :=
  s.ir.map fun ir => if ir.pageCross && crossed then ir.cycles + 1 else ir.cycles

/-- Z and N of a result (10_state.md R25). -/
def zn (f : Flags) (r : Byte) : Flags := { f with z := decide (r = 0), n := decide (128 ≤ r.toNat) }

/-- A flag as 0 or 1. -/
def bit (b : Bool) : Nat := if b then 1 else 0

/-- The address the stack pointer value `sp` designates: 0x0100 + sp (10_state.md R22). -/
def stackByte (sp : Byte) : Word := BitVec.ofNat 16 (0x0100 + sp.toNat)

/-- Every byte of flat RAM outside `stored` reads as before, an address that is no device is still
answered from it, and the windows are the same. -/
def OtherBytesKept (b c : Bus) (stored : Word → Prop) : Prop :=
  c.devices = b.devices ∧
  ∀ a, ¬ stored a → ramRead c.ram a.toNat = ramRead b.ram a.toNat ∧
    (b.isDevice a = false → c.answer a = b.answer a)

/-- The byte at `a` is `v` after a store, where `a` is flat RAM in canonical form. -/
def ByteStored (b c : Bus) (a : Word) (v : Byte) : Prop :=
  Memory.wf b.ram = true → b.isDevice a = false → c.answer a = v

/-- Execute of `i` completes with `result v` of the operand byte `v` its mode reads; the bus makes
the reads of the mode, and no byte of memory changes. -/
def CompletesReading (i : Instr) (m : Mode) (s : State) (result : Byte → State) : Prop :=
  ∃ v c b, readOperand i.mnemonic m s = .ok ⟨v, c, { s with bus := b }⟩ ∧
    exec i s = .next { result v with bus := b, cycleOut := count s c } ∧
    OtherBytesKept s.bus b fun _ => False

/-- Execute of `i` completes by storing `v` at the effective address of its mode: every register and
flag is kept, and every other byte of memory. -/
def CompletesStoring (i : Instr) (m : Mode) (s : State) (v : Byte) : Prop :=
  ∃ a c b, effAddr i.mnemonic m s = .ok ⟨a, c, { s with bus := b }⟩ ∧
    exec i s = .next { s with bus := b.afterWrite a v, cycleOut := count s false } ∧
    OtherBytesKept s.bus (b.afterWrite a v) (fun k => k = a) ∧
    ByteStored s.bus (b.afterWrite a v) a v

/-- Execute of `i` completes by one read of the effective address, then one write of `f v` of the
byte `v` read there to the same address; the flags become `flags v`, and every register and every
other byte of memory is kept. -/
def CompletesModifying (i : Instr) (m : Mode) (s : State) (f : Byte → Byte) (flags : Byte → Flags) :
    Prop :=
  ∃ a c b, effAddr i.mnemonic m s = .ok ⟨a, c, { s with bus := b }⟩ ∧
    exec i s = .next { s with
      flags := flags (b.answer a)
      bus := (b.afterRead a (b.answer a)).afterWrite a (f (b.answer a))
      cycleOut := count s c } ∧
    OtherBytesKept s.bus ((b.afterRead a (b.answer a)).afterWrite a (f (b.answer a))) (fun k => k = a) ∧
    ByteStored s.bus ((b.afterRead a (b.answer a)).afterWrite a (f (b.answer a))) a (f (b.answer a))

/-- The target of a taken branch: the signed offset added to `pc`, modulo 65536 (43_branch.md R160). -/
def branchTarget (pc : Word) (o : Byte) : Word := BitVec.ofInt 16 ((pc.toNat : Int) + o.toInt)

/-- The mode is one the handler of the mnemonic services (60_exceptions.md R251, R253). -/
def serviced (i : Instr) : Bool :=
  match i.mnemonic with
  | .adc | .sbc | .and | .ora | .eor | .cmp | .cpx | .cpy | .bit | .lda | .ldx | .ldy =>
    i.mode.isSource
  | .inc | .dec => i.mode.isCell
  | .asl | .lsr | .rol | .ror | .sta | .stx | .sty => i.mode.isCell || i.mode == .accumulator
  | .bcc | .bcs | .beq | .bmi | .bne | .bpl | .bvc | .bvs => i.mode.kind == .relative
  | .jmp => i.mode.kind == .absolute || i.mode.kind == .indirect
  | .jsr => i.mode.kind == .absolute
  | _ => true

/-- The seven flags by name (10_state.md R24). -/
inductive Flag where
  | c | z | i | d | b | v | n
  deriving DecidableEq, Repr

/-- The value of a flag. -/
def Flag.get (f : Flags) : Flag → Bool
  | .c => f.c | .z => f.z | .i => f.i | .d => f.d | .b => f.b | .v => f.v | .n => f.n

/-- The state with one flag set to a value. -/
def Flag.put (s : State) (x : Bool) : Flag → State
  | .c => { s with flags := { s.flags with c := x } }
  | .z => { s with flags := { s.flags with z := x } }
  | .i => { s with flags := { s.flags with i := x } }
  | .d => { s with flags := { s.flags with d := x } }
  | .b => { s with flags := { s.flags with b := x } }
  | .v => { s with flags := { s.flags with v := x } }
  | .n => { s with flags := { s.flags with n := x } }

/-- The "written by" column of 10_state.md R26. -/
def Flag.writers : Flag → List Mnemonic
  | .c => [.adc, .sbc, .asl, .lsr, .rol, .ror, .cmp, .cpx, .cpy, .clc, .sec, .plp, .rti]
  | .z | .n =>
    [.adc, .sbc, .and, .ora, .eor, .asl, .lsr, .rol, .ror, .cmp, .cpx, .cpy, .bit, .inc, .dec, .inx,
     .iny, .dex, .dey, .lda, .ldx, .ldy, .tax, .tay, .tsx, .txa, .tya, .pla, .plp, .rti]
  | .i => [.cli, .sei, .brk, .plp, .rti]
  | .d => [.cld, .sed, .plp, .rti]
  | .b => []
  | .v => [.adc, .sbc, .bit, .clv, .plp, .rti]

/-- The "read by" column of 10_state.md R26. -/
def Flag.readers : Flag → List Mnemonic
  | .c => [.adc, .sbc, .rol, .ror, .bcc, .bcs, .php, .brk]
  | .z => [.beq, .bne, .php, .brk]
  | .i | .d => [.php, .brk]
  | .b => []
  | .v => [.bvc, .bvs, .php, .brk]
  | .n => [.bmi, .bpl, .php, .brk]

/-- An outcome with its next state mapped. -/
def mapNext (g : State → State) : Out → Out
  | .next t => .next (g t)
  | .fault f => .fault f
  | .refused r => .refused r

/-- The byte an address of flat RAM holds after the accesses of a history (newest first), over an
initial image: the last byte written to it (20_memory.md R60, R66). -/
def lastWritten (image : Word → Byte) : List Access → Word → Byte
  | [], a => image a
  | e :: older, a => if e.kind = .write ∧ e.addr = a then e.value else lastWritten image older a

/-- Every read of flat RAM in the history was answered with the last byte written before it. -/
def readsCoherent (image : Word → Byte) (b : Bus) : List Access → Prop
  | [] => True
  | e :: older =>
    (e.kind = .read → b.isDevice e.addr = false → e.value = lastWritten image older e.addr) ∧
    readsCoherent image b older

/-- The bus keeps its word: canonical memory, flat RAM holds what was last written, and every read of
it so far was answered so (20_memory.md R60, R66). -/
def BusCoherent (image : Word → Byte) (b : Bus) : Prop :=
  Memory.wf b.ram = true ∧
  (∀ a, b.isDevice a = false → ramRead b.ram a.toNat = lastWritten image b.history a) ∧
  readsCoherent image b b.history

end Sys2Proof.Stated

open Sys2Proof Sys2Proof.Machine Sys2Proof.Stated

/-! ### State, reset and the memory interface -/

/-- 10_state.md R25: SetZN writes Z and N from the result, and nothing else. -/
def Obligations.SetZNWritesZeroAndSign : Prop :=
  ∀ (v : Byte) (s : State), setZN v s = { s with flags := zn s.flags v }

/-- 10_state.md section 4 (R27, the layout the spec marks general knowledge G4, and D17): the bits of
PackP, what UnpackP takes from a byte, and that it undoes PackP but for B. -/
def Obligations.PackedStatusLayout : Prop :=
  ∀ (f g : Flags) (b4 : Bool) (v : Byte),
    packP b4 f = BitVec.ofNat 8 (bit f.n * 2 ^ 7 + bit f.v * 2 ^ 6 + 1 * 2 ^ 5 + bit b4 * 2 ^ 4 +
      bit f.d * 2 ^ 3 + bit f.i * 2 ^ 2 + bit f.z * 2 ^ 1 + bit f.c * 2 ^ 0) ∧
    unpackP v f = { c := v.getLsbD 0, z := v.getLsbD 1, i := v.getLsbD 2, d := v.getLsbD 3,
                    b := f.b, v := v.getLsbD 6, n := v.getLsbD 7 } ∧
    unpackP (packP b4 f) g = { f with b := g.b }

/-- 70_reset_and_hazards.md section 1 (R280; that nothing else changes is the spec's decision D11):
reset loads `pc` with the word at 0xFFFC, reading 0xFFFC and then 0xFFFD, empties the latch, and keeps
everything else; over flat RAM the value is the two bytes' little-endian word. -/
def Obligations.ResetLoadsPcFromVector : Prop :=
  ∀ s : State, ∃ lo hi : Byte,
    (resetCore s) = { s with
      pc := BitVec.ofNat 16 (hi.toNat * 256 + lo.toNat)
      ir := none
      bus := { s.bus with history := ⟨.read, 0xFFFD, hi⟩ :: ⟨.read, 0xFFFC, lo⟩ :: s.bus.history } } ∧
    (s.bus.isDevice 0xFFFC = false → lo = s.ramByte 0xFFFC) ∧
    (s.bus.isDevice 0xFFFD = false → hi = s.ramByte 0xFFFD)

/-- The MODEL'S CHOICE (log entries 1 to 4, DESIGN CHOICE): the state after reset is one reset() of
the core powered on with the zero INIT over a blank flat RAM; it meets the invariants that every step
keeps, over the image of unlisted bytes. -/
def Obligations.ResetStateMeetsTheInvariants : Prop :=
  State.reset = resetCore (State.powerOn Init.zero Bus.blank) ∧
  Memory.wf State.reset.bus.ram = true ∧
  BusCoherent (fun _ => unlistedByte) State.reset.bus

/-- 20_memory.md section 2 (R52; that the low byte is read first is the spec's decision D21, log entry
13): get_word reads the low byte at `a`, then the high byte at (a + 1) mod 65536, and gives low | high
<< 8. -/
def Obligations.GetWordReadsLowThenHigh : Prop :=
  ∀ (a : Word) (s : State), ∃ a1 : Word, a1.toNat = (a.toNat + 1) % 65536 ∧
    let lo := s.bus.answer a
    let b1 := s.bus.afterRead a lo
    let hi := b1.answer a1
    (readWord a s).value.toNat = lo.toNat ||| (hi.toNat <<< 8) ∧
    (readWord a s).state = { s with bus := b1.afterRead a1 hi }

/-- 20_memory.md section 2 (R53; the order low byte first is the spec's decision D13): set_word writes
the low byte at `a`, then the high byte at (a + 1) mod 65536, and in flat RAM get_word then gives the
word back. -/
def Obligations.SetWordThenGetWord : Prop :=
  ∀ (a v : Word) (s : State),
    ((writeWord a v s).bus.history =
      ⟨.write, a + 1, BitVec.ofNat 8 (v.toNat / 256)⟩ ::
        ⟨.write, a, BitVec.ofNat 8 (v.toNat % 256)⟩ :: s.bus.history) ∧
    (Memory.wf s.bus.ram = true → s.bus.isDevice a = false → s.bus.isDevice (a + 1) = false →
      (readWord a (writeWord a v s)).value = v)

/-- 20_memory.md section 7 (R66, the instance FlatRAM of decision D12): a write to flat RAM replaces
the byte at its address, and a read has no other effect. -/
def Obligations.FlatRamReadAfterWrite : Prop :=
  ∀ (s : State) (a k : Word) (v : Byte), Memory.wf s.bus.ram = true → s.bus.isDevice a = false →
    s.bus.isDevice k = false →
    (writeByte a v s).peek k = (if k = a then v else s.peek k) ∧
    (readByte a s).state.peek k = s.peek k

/-- 20_memory.md section 6 (R65, the discipline the spec marks general knowledge G2, decision D9):
Push writes at 0x0100 + S and decrements S, Pull increments S and reads there, both modulo 256 and
always in page 1, and a Pull gives a pushed byte back. -/
def Obligations.PullGivesBackThePushedByte : Prop :=
  ∀ (v : Byte) (s : State),
    push v s = { s with sp := BitVec.ofNat 8 (s.sp.toNat + 255),
                        bus := s.bus.afterWrite (stackByte s.sp) v } ∧
    (pull s).value = s.bus.answer (stackByte (s.sp + 1)) ∧
    (pull s).state = { s with
      sp := BitVec.ofNat 8 (s.sp.toNat + 1)
      bus := s.bus.afterRead (stackByte (s.sp + 1)) (s.bus.answer (stackByte (s.sp + 1))) } ∧
    (stackByte s.sp).toNat = 0x0100 + s.sp.toNat ∧
    (Memory.wf s.bus.ram = true → s.bus.isDevice (stackByte s.sp) = false →
      (pull (push v s)).value = v ∧ (pull (push v s)).state.sp = s.sp)

/-! ### Decoding and fetching -/

/-- 30_encoding.md sections 3 and 4 (R84 to R87; the byte values are general knowledge G1, the fallback
row is the spec's decision D6, log entry 13): 151 rows, no two of one byte, and the bytes without a row
are exactly the 105 undefined ones, whose row is the fallback (NOP, Implicit, 0, false). -/
def Obligations.DecodeTableIsTotalAndUnambiguous : Prop :=
  opcodeTable.length = 151 ∧
  (opcodeTable.map OpcodeRow.opcode).Pairwise (· ≠ ·) ∧
  ((List.range 256).filter fun n => isUndefinedOpcode (BitVec.ofNat 8 n)).length = 105 ∧
  ∀ b : Byte, ((definedRow b).isSome = !isUndefinedOpcode b) ∧
    (isUndefinedOpcode b = true → rowOf b = ⟨b, .nop, .implicit, 0, false⟩)

/-- Sanity: words written out from 30_encoding.md R81, R85 and the vectors of 95_test_vectors.md 2.12
decode to their instructions. -/
def Obligations.SampleWordsDecode : Prop :=
  decode [0xEA] = .ok (.nop, []) ∧
  decode [0x0A] = .ok (.asl .accumulator, []) ∧
  decode [0xA9, 0x7F] = .ok (.lda (.immediate 0x7F), []) ∧
  decode [0xB6, 0x10] = .ok (.ldx (.zeroPageY 0x10), []) ∧
  decode [0xD0, 0xFE] = .ok (.bne (.relative 0xFE), []) ∧
  decode [0x9D, 0x34, 0x12] = .ok (.sta (.absoluteX 0x1234), []) ∧
  decode [0x6C, 0x34, 0x12] = .ok (.jmp (.indirect 0x1234), []) ∧
  decode [0xB1, 0x20] = .ok (.lda (.indirectY 0x20), []) ∧
  decode [0x02, 0xEA] = .ok (.undefinedOpcode 0x02, [0xEA])

/-- 30_encoding.md sections 1, 3 and 4 (the fallback is decision D6): every well-formed instruction,
with every operand, has bytes, as many as its mode's length, and decoding them, whatever follows, gives
it back. -/
def Obligations.DecodeUndoesEncode : Prop :=
  ∀ i : Instr, i.wellFormed = true →
    ∃ bytes, encode i = some bytes ∧ bytes.length = 1 + i.mode.kind.operandWidth ∧
      ∀ rest, decode (bytes ++ rest) = .ok (i, rest)

/-- 30_encoding.md sections 1, 3, 4 and 6 (R92 is the spec's own inspection): what the decoder reads is
well-formed, and the bytes it consumed are that instruction's encoding and no other. -/
def Obligations.EncodeUndoesDecode : Prop :=
  ∀ (bytes rest : List Byte) (i : Instr), decode bytes = .ok (i, rest) →
    i.wellFormed = true ∧ ∃ head, encode i = some head ∧ bytes = head ++ rest

/-- 30_encoding.md section 2 (R83; orders and wrap by decisions D21 and D28): fetch reads the opcode
byte and the operand bytes and no more, in ascending address order modulo 65536; it moves `pc` past
them, loads the latch with the row's figures, and changes nothing else. -/
def Obligations.FetchReadsExactlyTheInstruction : Prop :=
  ∀ s : State, ∃ reads : List Access,
    let row := rowOf (s.peek s.pc)
    reads.map Access.addr =
      (List.range (1 + row.kind.operandWidth)).map (fun k => s.pc + BitVec.ofNat 16 k) ∧
    (∀ e ∈ reads, e.kind = .read) ∧
    (fetch s).value.mnemonic = row.mnemonic ∧ (fetch s).value.mode.kind = row.kind ∧
    (fetch s).state = { s with
      pc := BitVec.ofNat 16 (s.pc.toNat + 1 + row.kind.operandWidth)
      ir := some ⟨(fetch s).value, row.cycles, row.pageCross⟩
      bus := { s.bus with history := reads.reverse ++ s.bus.history } }

/-- 30_encoding.md section 2, 70_reset_and_hazards.md section 2 (R83, R281): when the bytes the bus
answers at `pc`, `pc + 1`, `pc + 2` decode to `i`, a step is execute of `i` at the state after fetch:
as many of those reads made as `i` has bytes, `pc` past them, the latch holding `i` with its row's
cycle figure and page-cross flag. -/
def Obligations.StepExecutesTheDecodedInstruction : Prop :=
  ∀ (s : State) (i : Instr) (rest : List Byte),
    let r0 := readByte s.pc s
    let r1 := readByte (s.pc + 1) r0.state
    let r2 := readByte (s.pc + 2) r1.state
    decode [r0.value, r1.value, r2.value] = .ok (i, rest) →
    let used := 3 - rest.length
    let bus := if used = 1 then r0.state.bus else if used = 2 then r1.state.bus else r2.state.bus
    step s = exec i { s with
      pc := s.pc + BitVec.ofNat 16 used
      ir := some ⟨i, (rowOf r0.value).cycles, (rowOf r0.value).pageCross⟩
      bus := bus }

/-- 70_reset_and_hazards.md section 2, 20_memory.md section 5 (R60, R281): all accesses of a step come
after everything before it, and within it the accesses of fetch come before those of execute; no access
is dropped or changed afterwards. -/
def Obligations.StepAppendsToTheAccessHistory : Prop :=
  ∀ s t : State, step s = .next t →
    (∃ execAccesses, t.bus.history = execAccesses ++ (fetch s).state.bus.history) ∧
    (∃ fetchAccesses, (fetch s).state.bus.history = fetchAccesses ++ s.bus.history) ∧
    t.bus.devices = s.bus.devices

/-! ### The address resolver -/

/-- 40_address_resolver.md R110, R111, R113, and the address of R112: the modes whose effective address
is the operand, or the operand plus an index with 8-bit wrap, read no memory and cross no page. -/
def Obligations.DirectModesResolve : Prop :=
  ∀ (mn : Mnemonic) (o : Byte) (w : Word) (s : State),
    (∃ a, effAddr mn (.zeroPage o) s = .ok ⟨a, false, s⟩ ∧ a.toNat = o.toNat) ∧
    (∃ a, effAddr mn (.zeroPageX o) s = .ok ⟨a, false, s⟩ ∧ a.toNat = (o.toNat + s.x.toNat) % 256) ∧
    (∃ a, effAddr mn (.zeroPageY o) s = .ok ⟨a, false, s⟩ ∧ a.toNat = (o.toNat + s.y.toNat) % 256) ∧
    effAddr mn (.absolute w) s = .ok ⟨w, false, s⟩

/-- 40_address_resolver.md section 1 (R114, R115; the wrap at the top is decision D25): the index is
added modulo 65536, and the page is crossed when the high byte changes. -/
def Obligations.AbsoluteIndexedModesResolve : Prop :=
  ∀ (mn : Mnemonic) (w : Word) (s : State),
    (∃ a c, effAddr mn (.absoluteX w) s = .ok ⟨a, c, s⟩ ∧ a.toNat = (w.toNat + s.x.toNat) % 65536 ∧
      (c = true ↔ a.toNat / 256 ≠ w.toNat / 256)) ∧
    (∃ a c, effAddr mn (.absoluteY w) s = .ok ⟨a, c, s⟩ ∧ a.toNat = (w.toNat + s.y.toNat) % 65536 ∧
      (c = true ↔ a.toNat / 256 ≠ w.toNat / 256))

/-- 40_address_resolver.md section 1 (R116, R117; the 16-bit pointer increment is decision D8):
IndirectX reads its pointer at (operand + X) mod 256, IndirectY reads its pointer at the operand and
adds Y; both pointers are read low byte, then high byte at the next 16-bit address. -/
def Obligations.IndirectModesResolve : Prop :=
  ∀ (mn : Mnemonic) (o : Byte) (s : State),
    (∃ p : Word, p.toNat = (o.toNat + s.x.toNat) % 256 ∧
      let lo := s.bus.answer p
      let b1 := s.bus.afterRead p lo
      let hi := b1.answer (p + 1)
      effAddr mn (.indirectX o) s = .ok ⟨BitVec.ofNat 16 (hi.toNat * 256 + lo.toNat), false,
        { s with bus := b1.afterRead (p + 1) hi }⟩) ∧
    (∃ p : Word, p.toNat = o.toNat ∧
      let lo := s.bus.answer p
      let b1 := s.bus.afterRead p lo
      let hi := b1.answer (p + 1)
      let base := hi.toNat * 256 + lo.toNat
      ∃ a c, effAddr mn (.indirectY o) s = .ok ⟨a, c, { s with bus := b1.afterRead (p + 1) hi }⟩ ∧
        a.toNat = (base + s.y.toNat) % 65536 ∧ (c = true ↔ a.toNat / 256 ≠ base / 256))

/-- 40_address_resolver.md sections 2 and 3 (R118 to R124; Accumulator is decision D5, Indirect D22):
what the modes that name no memory cell give or raise; the raise makes no access. -/
def Obligations.ModesWithoutACell : Prop :=
  ∀ (mn : Mnemonic) (m : Mode) (o v : Byte) (s : State),
    readOperand mn (.immediate o) s = .ok ⟨o, false, s⟩ ∧
    readOperand mn .accumulator s = .ok ⟨s.a, false, s⟩ ∧
    writeOperand mn .accumulator v s = .ok { s with a := v } ∧
    (m.isCell = false → effAddr mn m s = .error (.invalidAddressingMode mn m)) ∧
    (m.isSource = false → readOperand mn m s = .error (.invalidAddressingMode mn m)) ∧
    (m.isCell = false → m ≠ .accumulator →
      writeOperand mn m v s = .error (.invalidAddressingMode mn m))

/-- 20_memory.md R67: through one mode and operand, the generic read and the generic write target the
identical effective address, one read there or one write there after the same pointer reads; and a
read-modify-write instruction resolves once and uses that one address for its read and its write. -/
def Obligations.ReadAndWriteTargetTheSameAddress : Prop :=
  ∀ (mn : Mnemonic) (m : Mode) (s : State), m.isCell = true →
    ∃ a c b, effAddr mn m s = .ok ⟨a, c, { s with bus := b }⟩ ∧
      readOperand mn m s = .ok ⟨b.answer a, c, { s with bus := b.afterRead a (b.answer a) }⟩ ∧
      (∀ v, writeOperand mn m v s = .ok { s with bus := b.afterWrite a v }) ∧
      ∀ i ∈ [Instr.asl m, .lsr m, .rol m, .ror m, .inc m, .dec m],
        ∃ t v, exec i s = .next t ∧ t.bus = (b.afterRead a (b.answer a)).afterWrite a v

/-- 40_address_resolver.md R126: the resolver modifies no register; the only state it can write is the
target of WriteOperand, a memory byte or, in Accumulator mode, A; and it reads no flag. -/
def Obligations.ResolverWritesOnlyItsTarget : Prop :=
  ∀ (mn : Mnemonic) (m : Mode) (s : State),
    (∀ r, effAddr mn m s = .ok r →
      r.state = { s with bus := r.state.bus } ∧ OtherBytesKept s.bus r.state.bus fun _ => False) ∧
    (∀ r, readOperand mn m s = .ok r →
      r.state = { s with bus := r.state.bus } ∧ OtherBytesKept s.bus r.state.bus fun _ => False) ∧
    (∀ v t, writeOperand mn m v s = .ok t →
      (m = .accumulator ∧ t = { s with a := v }) ∨
      (t = { s with bus := t.bus } ∧ ∃ r, effAddr mn m s = .ok r ∧
        OtherBytesKept s.bus t.bus fun k => k = r.addr)) ∧
    (∀ f, effAddr mn m { s with flags := f } =
      (effAddr mn m s).map fun r => { r with state := { r.state with flags := f } }) ∧
    (∀ f, readOperand mn m { s with flags := f } =
      (readOperand mn m s).map fun r => { r with state := { r.state with flags := f } }) ∧
    (∀ f v, writeOperand mn m v { s with flags := f } =
      (writeOperand mn m v s).map fun t => { t with flags := f })

/-! ### Arithmetic and logic -/

/-- 41_arithmetic_logic.md, R141 (the accumulator in the V formula is the one before the instruction by
the spec's decision D7, 90_conflicts.md C2; that the sum is binary whatever D holds is D16; the opcode
bytes are general knowledge G1; log entry 13): ADC, with its opcode bytes, adds the operand and the
carry to A; C is the carry out of either add, V the sign-bit XOR of both operands with the result, Z and
N follow the result; nothing else changes. -/
def Obligations.AdcAddsOperandAndCarry : Prop :=
  ([ModeKind.immediate, .zeroPage, .zeroPageX, .absolute, .absoluteX, .absoluteY, .indirectX,
    .indirectY].map (opcodeOf .adc) =
      [some 0x69, some 0x65, some 0x75, some 0x6D, some 0x7D, some 0x79, some 0x61, some 0x71]) ∧
  ∀ (m : Mode) (s : State), m.isSource = true → CompletesReading (.adc m) m s fun v =>
    let s1 := s.a.toNat + v.toNat
    let s2 := s1 % 256 + bit s.flags.c
    let r : Byte := BitVec.ofNat 8 (s2 % 256)
    { s with
      a := r
      flags := zn { s.flags with c := decide (s1 > 0xFF ∨ s2 > 0xFF)
                                 v := decide ((v ^^^ r) &&& (s.a ^^^ r) &&& 0x80 ≠ 0) } r }

/-- 41_arithmetic_logic.md, R141 (its derived sentences; the accumulator in the V formula is decision
D7): the new C says the full sum passed 255, the two carries are never both out, and V says the signed
sum left -128..127. -/
def Obligations.AdcOverflowIsSignedOverflow : Prop :=
  ∀ (a m : Byte) (c : Bool),
    (addWithCarry a m c).value = BitVec.ofNat 8 (a.toNat + m.toNat + bit c) ∧
    ((addWithCarry a m c).carry = true ↔ a.toNat + m.toNat + bit c > 255) ∧
    ¬ (a.toNat + m.toNat > 255 ∧ (a.toNat + m.toNat) % 256 + bit c > 255) ∧
    ((addWithCarry a m c).overflow = true ↔
      (a.toInt + m.toInt + bit c < -128 ∨ a.toInt + m.toInt + bit c > 127))

/-- 41_arithmetic_logic.md, R142 (SBC, which the spec marks general knowledge G5, decision D2):
A minus the operand minus the borrow; C is "no borrow", V is "the signed difference left -128..127",
Z and N follow the result; D is not read and nothing else changes. -/
def Obligations.SbcSubtractsOperandAndBorrow : Prop :=
  ∀ (m : Mode) (s : State), m.isSource = true → CompletesReading (.sbc m) m s fun v =>
    let borrow := 1 - bit s.flags.c
    let r : Byte := BitVec.ofInt 8 (s.a.toNat - v.toNat - borrow)
    let signed := s.a.toInt - v.toInt - borrow
    { s with
      a := r
      flags := zn { s.flags with c := decide (v.toNat + borrow ≤ s.a.toNat)
                                 v := decide (signed < -128 ∨ 127 < signed) } r }

/-- 41_arithmetic_logic.md, R143, R144, R145 (the names ORA and EOR are general knowledge): AND, ORA and
EOR combine A with the operand bit by bit, and update Z and N only. -/
def Obligations.LogicCombinesWithAccumulator : Prop :=
  ∀ (m : Mode) (s : State), m.isSource = true →
    (CompletesReading (.and m) m s fun v => { s with a := s.a &&& v, flags := zn s.flags (s.a &&& v) }) ∧
    (CompletesReading (.ora m) m s fun v => { s with a := s.a ||| v, flags := zn s.flags (s.a ||| v) }) ∧
    (CompletesReading (.eor m) m s fun v => { s with a := s.a ^^^ v, flags := zn s.flags (s.a ^^^ v) })

/-! ### Shifts and rotates -/

/-- 42_shift_rotate.md, the memory forms of R151 and R152: ASL and LSR on a memory byte: one read, one
write of the same address, C from the bit shifted out, Z and N from the result, every register and other
byte kept. -/
def Obligations.ShiftsOnMemory : Prop :=
  ∀ (m : Mode) (s : State), m.isCell = true →
    (CompletesModifying (.asl m) m s (fun v => BitVec.ofNat 8 (2 * v.toNat)) fun v =>
      zn { s.flags with c := decide (128 ≤ v.toNat) } (BitVec.ofNat 8 (2 * v.toNat))) ∧
    (CompletesModifying (.lsr m) m s (fun v => BitVec.ofNat 8 (v.toNat / 2)) fun v =>
      zn { s.flags with c := decide (v.toNat % 2 = 1) } (BitVec.ofNat 8 (v.toNat / 2)))

/-- 42_shift_rotate.md, R153, R154 (the carry-in is general knowledge G7, decision D27): ROL
and ROR on a memory byte rotate through the old carry. -/
def Obligations.RotatesOnMemory : Prop :=
  ∀ (m : Mode) (s : State), m.isCell = true →
    (CompletesModifying (.rol m) m s
      (fun v => BitVec.ofNat 8 (2 * v.toNat + bit s.flags.c)) fun v =>
        zn { s.flags with c := decide (128 ≤ v.toNat) }
          (BitVec.ofNat 8 (2 * v.toNat + bit s.flags.c))) ∧
    (CompletesModifying (.ror m) m s
      (fun v => BitVec.ofNat 8 (v.toNat / 2 + 128 * bit s.flags.c)) fun v =>
        zn { s.flags with c := decide (v.toNat % 2 = 1) }
          (BitVec.ofNat 8 (v.toNat / 2 + 128 * bit s.flags.c)))

/-- 42_shift_rotate.md, R150 (Accumulator mode is decision D5): in Accumulator mode the byte is
A; there is no memory access, and nothing but A, C, Z and N changes. -/
def Obligations.ShiftsOnAccumulator : Prop :=
  ∀ s : State,
    let gives (r : Byte) (c : Bool) : Out :=
      .next { s with a := r, flags := zn { s.flags with c := c } r, cycleOut := count s false }
    exec (.asl .accumulator) s = gives (BitVec.ofNat 8 (2 * s.a.toNat)) (decide (128 ≤ s.a.toNat)) ∧
    exec (.lsr .accumulator) s = gives (BitVec.ofNat 8 (s.a.toNat / 2)) (decide (s.a.toNat % 2 = 1)) ∧
    exec (.rol .accumulator) s =
      gives (BitVec.ofNat 8 (2 * s.a.toNat + bit s.flags.c)) (decide (128 ≤ s.a.toNat)) ∧
    exec (.ror .accumulator) s =
      gives (BitVec.ofNat 8 (s.a.toNat / 2 + 128 * bit s.flags.c)) (decide (s.a.toNat % 2 = 1))

/-! ### Branches and jumps -/

/-- 43_branch.md R163: BEQ, opcode 0xF0, with Z set adds the signed offset to the `pc` already past the
branch; with Z clear execute changes nothing but the returned count; no flag, register or byte changes;
in any other mode it raises InvalidAddressingMode. -/
def Obligations.BeqAddsSignedOffset : Prop :=
  opcodeOf .beq .relative = some 0xF0 ∧
  ∀ (o : Byte) (m : Mode) (s : State),
    (s.flags.z = true →
      exec (.beq (.relative o)) s =
        .next { s with pc := branchTarget s.pc o, cycleOut := count s false }) ∧
    (s.flags.z = false → exec (.beq (.relative o)) s = .next { s with cycleOut := count s false }) ∧
    (m.kind ≠ .relative → exec (.beq m) s = .fault (.invalidAddressingMode .beq m))

/-- 43_branch.md, R160 to R168 (flag and polarity of all but BEQ are general knowledge G6,
decision D27): each branch tests one flag or its negation and, when true, adds the signed offset to
`pc`; nothing else changes, and the count is the base count either way. -/
def Obligations.BranchesTestOneFlag : Prop :=
  ∀ (o : Byte) (s : State),
    let gives (taken : Bool) : Out :=
      .next { s with pc := if taken then branchTarget s.pc o else s.pc, cycleOut := count s false }
    exec (.bcc (.relative o)) s = gives (!s.flags.c) ∧ exec (.bcs (.relative o)) s = gives s.flags.c ∧
    exec (.bne (.relative o)) s = gives (!s.flags.z) ∧ exec (.beq (.relative o)) s = gives s.flags.z ∧
    exec (.bpl (.relative o)) s = gives (!s.flags.n) ∧ exec (.bmi (.relative o)) s = gives s.flags.n ∧
    exec (.bvc (.relative o)) s = gives (!s.flags.v) ∧ exec (.bvs (.relative o)) s = gives s.flags.v

/-- 45_jump_subroutine.md R185: JMP Absolute, opcode 0x4C with a little-endian operand, sets `pc` to its
operand and changes nothing else; a JMP whose mode is neither Absolute nor Indirect raises
InvalidAddressingMode. -/
def Obligations.JmpAbsoluteSetsPc : Prop :=
  ∀ (w : Word) (lo hi : Byte) (m : Mode) (s : State),
    decode [0x4C, lo, hi] = .ok (.jmp (.absolute (BitVec.ofNat 16 (hi.toNat * 256 + lo.toNat))), []) ∧
    exec (.jmp (.absolute w)) s = .next { s with pc := w, cycleOut := count s false } ∧
    (m.kind ≠ .absolute → m.kind ≠ .indirect →
      exec (.jmp m) s = .fault (.invalidAddressingMode .jmp m))

/-- 45_jump_subroutine.md, R186 (no page wrap, decision D8): JMP Indirect reads the low byte at
its operand and the high byte at the next address, and sets `pc` to that word. -/
def Obligations.JmpIndirectDereferences : Prop :=
  ∀ (w : Word) (s : State),
    let lo := s.bus.answer w
    let b1 := s.bus.afterRead w lo
    let hi := b1.answer (w + 1)
    exec (.jmp (.indirect w)) s = .next { s with
      pc := BitVec.ofNat 16 (hi.toNat * 256 + lo.toNat)
      bus := b1.afterRead (w + 1) hi
      cycleOut := count s false } ∧
    OtherBytesKept s.bus (b1.afterRead (w + 1) hi) fun _ => False

/-- 45_jump_subroutine.md, R187 (the pushed value and order are decision D4): JSR pushes the
address of its own last byte, high byte at 0x0100 + S, low byte at the next lower index, takes 2 from S
and sets `pc`; every other byte, register and flag is kept; any other mode raises the fault. -/
def Obligations.JsrPushesItsLastAddress : Prop :=
  ∀ (w : Word) (m : Mode) (s : State),
    let ret := (s.pc.toNat + 65535) % 65536
    let b := (s.bus.afterWrite (stackByte s.sp) (BitVec.ofNat 8 (ret / 256))).afterWrite
      (stackByte (s.sp - 1)) (BitVec.ofNat 8 (ret % 256))
    exec (.jsr (.absolute w)) s =
      .next { s with pc := w, sp := s.sp - 2, bus := b, cycleOut := count s false } ∧
    OtherBytesKept s.bus b (fun k => k = stackByte s.sp ∨ k = stackByte (s.sp - 1)) ∧
    (m.kind ≠ .absolute → exec (.jsr m) s = .fault (.invalidAddressingMode .jsr m))

/-- 45_jump_subroutine.md, R188 (RTS, general knowledge G9, decision D1): RTS pulls the low
byte, then the high byte, adds 2 to S and continues at that word plus 1. -/
def Obligations.RtsPullsAndAddsOne : Prop :=
  ∀ s : State,
    let lo := s.bus.answer (stackByte (s.sp + 1))
    let b1 := s.bus.afterRead (stackByte (s.sp + 1)) lo
    let hi := b1.answer (stackByte (s.sp + 2))
    exec .rts s = .next { s with
      pc := BitVec.ofNat 16 (hi.toNat * 256 + lo.toNat + 1)
      sp := s.sp + 2
      bus := b1.afterRead (stackByte (s.sp + 2)) hi
      cycleOut := count s false } ∧
    OtherBytesKept s.bus (b1.afterRead (stackByte (s.sp + 2)) hi) fun _ => False

/-- 45_jump_subroutine.md, R187, R188 (decisions D4, D1): an RTS at a state with the S and the
flat RAM a JSR left returns to the instruction after the JSR and restores S. -/
def Obligations.RtsReturnsPastItsJsr : Prop :=
  ∀ (w : Word) (s t u : State), Memory.wf s.bus.ram = true →
    s.bus.isDevice (stackByte s.sp) = false → s.bus.isDevice (stackByte (s.sp - 1)) = false →
    exec (.jsr (.absolute w)) s = .next t →
    u.sp = t.sp → u.bus.ram = t.bus.ram → u.bus.devices = t.bus.devices →
    ∃ v, exec .rts u = .next v ∧ v.pc = s.pc ∧ v.sp = s.sp ∧ v.bus.ram = t.bus.ram

/-! ### Compares, bit test, increments and decrements -/

/-- 44_compare_incdec.md section 1 (R170 to R173; the N rule is decision D3): a compare sets C when the
register is at least the operand, Z when equal, N from bit 7 of the difference; it stores nothing. -/
def Obligations.CompareSetsCarryZeroSign : Prop :=
  ∀ (m : Mode) (s : State), m.isSource = true →
    let cmp (reg v : Byte) : State := { s with flags := { s.flags with
      c := decide (v.toNat ≤ reg.toNat)
      z := decide (reg = v)
      n := decide (128 ≤ (reg.toNat + 256 - v.toNat) % 256) } }
    CompletesReading (.cmp m) m s (cmp s.a) ∧ CompletesReading (.cpx m) m s (cmp s.x) ∧
    CompletesReading (.cpy m) m s (cmp s.y)

/-- 44_compare_incdec.md section 2 (R174, general knowledge G8, decision D1): BIT sets Z from A and the
byte, N and V from bits 7 and 6 of the byte; A and C are kept. -/
def Obligations.BitTestsMemoryAgainstA : Prop :=
  ∀ (m : Mode) (s : State), m.isSource = true → CompletesReading (.bit m) m s fun v =>
    { s with flags := { s.flags with
      z := decide (s.a &&& v = 0)
      n := decide (128 ≤ v.toNat)
      v := decide (64 ≤ v.toNat % 128) } }

/-- 44_compare_incdec.md R175, R176: INC and DEC, with their opcode bytes, replace a memory byte by
itself plus or minus 1 modulo 256, with one read and one write of the same address, and write Z and N
only. -/
def Obligations.IncDecOnMemory : Prop :=
  ([ModeKind.zeroPage, .zeroPageX, .absolute, .absoluteX].map (opcodeOf .inc) =
    [some 0xE6, some 0xF6, some 0xEE, some 0xFE]) ∧
  ([ModeKind.zeroPage, .zeroPageX, .absolute, .absoluteX].map (opcodeOf .dec) =
    [some 0xC6, some 0xD6, some 0xCE, some 0xDE]) ∧
  ∀ (m : Mode) (s : State), m.isCell = true →
    (CompletesModifying (.inc m) m s (fun v => BitVec.ofNat 8 ((v.toNat + 1) % 256)) fun v =>
      zn s.flags (BitVec.ofNat 8 ((v.toNat + 1) % 256))) ∧
    (CompletesModifying (.dec m) m s (fun v => BitVec.ofNat 8 ((v.toNat + 255) % 256)) fun v =>
      zn s.flags (BitVec.ofNat 8 ((v.toNat + 255) % 256)))

/-- 44_compare_incdec.md R177 to R180: INX, INY, DEX, DEY, with their opcode bytes: the register plus
or minus 1 modulo 256, Z and N from it, nothing else, no memory access. -/
def Obligations.IncDecOnIndexRegisters : Prop :=
  (opcodeOf .inx .implicit = some 0xE8 ∧ opcodeOf .iny .implicit = some 0xC8 ∧
    opcodeOf .dex .implicit = some 0xCA ∧ opcodeOf .dey .implicit = some 0x88) ∧
  ∀ s : State,
    let up (v : Byte) : Byte := BitVec.ofNat 8 ((v.toNat + 1) % 256)
    let down (v : Byte) : Byte := BitVec.ofNat 8 ((v.toNat + 255) % 256)
    exec .inx s = .next { s with x := up s.x, flags := zn s.flags (up s.x), cycleOut := count s false } ∧
    exec .iny s = .next { s with y := up s.y, flags := zn s.flags (up s.y), cycleOut := count s false } ∧
    exec .dex s =
      .next { s with x := down s.x, flags := zn s.flags (down s.x), cycleOut := count s false } ∧
    exec .dey s =
      .next { s with y := down s.y, flags := zn s.flags (down s.y), cycleOut := count s false }

/-! ### Flag instructions, NOP, the fallback -/

/-- 46_flag_nop.md R195 to R201, with their opcode bytes: each sets or clears exactly one named flag
and nothing else. -/
def Obligations.FlagInstructionsWriteOneFlag : Prop :=
  (opcodeOf .clc .implicit = some 0x18 ∧ opcodeOf .cld .implicit = some 0xD8 ∧
    opcodeOf .cli .implicit = some 0x58 ∧ opcodeOf .clv .implicit = some 0xB8 ∧
    opcodeOf .sec .implicit = some 0x38 ∧ opcodeOf .sed .implicit = some 0xF8 ∧
    opcodeOf .sei .implicit = some 0x78) ∧
  ∀ s : State,
    let gives (f : Flags) : Out := .next { s with flags := f, cycleOut := count s false }
    exec .clc s = gives { s.flags with c := false } ∧ exec .cld s = gives { s.flags with d := false } ∧
    exec .cli s = gives { s.flags with i := false } ∧ exec .clv s = gives { s.flags with v := false } ∧
    exec .sec s = gives { s.flags with c := true } ∧ exec .sed s = gives { s.flags with d := true } ∧
    exec .sei s = gives { s.flags with i := true }

/-- 46_flag_nop.md, R203, R204 (decisions D2, D6): NOP and the fallback of every undefined
byte write nothing and access no memory in execute; a step at an undefined byte reads that byte alone,
moves `pc` by 1, returns 0 cycles and changes no register, flag or byte. -/
def Obligations.NopAndUndefinedBytesDoNothing : Prop :=
  ∀ (b : Byte) (s : State),
    exec .nop s = .next { s with cycleOut := count s false } ∧
    exec (.undefinedOpcode b) s = .next { s with cycleOut := count s false } ∧
    (isUndefinedOpcode (s.peek s.pc) = true →
      step s = .next { s with
        pc := s.pc + 1
        ir := some ⟨.undefinedOpcode (s.peek s.pc), 0, false⟩
        bus := s.bus.afterRead s.pc (s.peek s.pc)
        cycleOut := some 0 })

/-! ### Loads, stores, transfers -/

/-- 47_load_store_transfer.md section 1 (R211 to R213, general knowledge G10, decision D1): a load
moves the operand byte to its register and sets Z and N. -/
def Obligations.LoadsMoveTheOperand : Prop :=
  ∀ (m : Mode) (s : State), m.isSource = true →
    (CompletesReading (.lda m) m s fun v => { s with a := v, flags := zn s.flags v }) ∧
    (CompletesReading (.ldx m) m s fun v => { s with x := v, flags := zn s.flags v }) ∧
    (CompletesReading (.ldy m) m s fun v => { s with y := v, flags := zn s.flags v })

/-- 47_load_store_transfer.md section 2 (R214 to R216, general knowledge G10, decision D1): a store
writes its register's byte at the effective address, once, without reading the target, and changes no
flag, no register and no other byte. -/
def Obligations.StoresWriteTheRegister : Prop :=
  ∀ (m : Mode) (s : State), m.isCell = true →
    CompletesStoring (.sta m) m s s.a ∧ CompletesStoring (.stx m) m s s.x ∧
    CompletesStoring (.sty m) m s s.y

/-- 47_load_store_transfer.md section 3 (R217 to R222, general knowledge G11, decision D1): a transfer
copies one register to another and sets Z and N, but TXS, which sets none. -/
def Obligations.TransfersCopyARegister : Prop :=
  ∀ s : State,
    let f (v : Byte) : Flags := zn s.flags v
    exec .tax s = .next { s with x := s.a, flags := f s.a, cycleOut := count s false } ∧
    exec .tay s = .next { s with y := s.a, flags := f s.a, cycleOut := count s false } ∧
    exec .tsx s = .next { s with x := s.sp, flags := f s.sp, cycleOut := count s false } ∧
    exec .txa s = .next { s with a := s.x, flags := f s.x, cycleOut := count s false } ∧
    exec .txs s = .next { s with sp := s.x, cycleOut := count s false } ∧
    exec .tya s = .next { s with a := s.y, flags := f s.y, cycleOut := count s false }

/-! ### Stack and system -/

/-- 48_stack_system.md, R230, R231 (general knowledge G12, decision D1): PHA and PHP write one
byte at 0x0100 + S, A or the packed flags with bits 5 and 4 set, and decrement S; nothing else. -/
def Obligations.PushesStoreOneByte : Prop :=
  ∀ s : State,
    let done (v : Byte) : Out := .next { s with
      sp := s.sp - 1, bus := s.bus.afterWrite (stackByte s.sp) v, cycleOut := count s false }
    exec .pha s = done s.a ∧ exec .php s = done (packP true s.flags) ∧
    ∀ v, OtherBytesKept s.bus (s.bus.afterWrite (stackByte s.sp) v) (fun k => k = stackByte s.sp) ∧
      ByteStored s.bus (s.bus.afterWrite (stackByte s.sp) v) (stackByte s.sp) v

/-- 48_stack_system.md, R232, R233 (general knowledge G12, decisions D1, D17): PLA and PLP
increment S and read one byte at 0x0100 + S; PLA loads A, Z and N from it, PLP the six flags. -/
def Obligations.PullsLoadOneByte : Prop :=
  ∀ s : State,
    let v := s.bus.answer (stackByte (s.sp + 1))
    let b := s.bus.afterRead (stackByte (s.sp + 1)) v
    exec .pla s = .next { s with
      a := v, flags := zn s.flags v, sp := s.sp + 1, bus := b, cycleOut := count s false } ∧
    exec .plp s = .next { s with
      flags := { c := v.getLsbD 0, z := v.getLsbD 1, i := v.getLsbD 2, d := v.getLsbD 3,
                 b := s.flags.b, v := v.getLsbD 6, n := v.getLsbD 7 }
      sp := s.sp + 1, bus := b, cycleOut := count s false } ∧
    OtherBytesKept s.bus b fun _ => False

/-- 48_stack_system.md, R235, 60_exceptions.md section 3 (R255; general knowledge G3, decision
D18): BRK pushes the address after its padding byte, high then low, and the packed flags with the old
I and with bits 5 and 4 set, takes 3 from S, sets I, and loads `pc` from 0xFFFE. -/
def Obligations.BrkTakesTheTrap : Prop :=
  ∀ s : State,
    let ret := (s.pc.toNat + 1) % 65536
    let b3 := ((s.bus.afterWrite (stackByte s.sp) (BitVec.ofNat 8 (ret / 256))).afterWrite
      (stackByte (s.sp - 1)) (BitVec.ofNat 8 (ret % 256))).afterWrite
      (stackByte (s.sp - 2)) (packP true s.flags)
    let lo := b3.answer 0xFFFE
    let b4 := b3.afterRead 0xFFFE lo
    let hi := b4.answer 0xFFFF
    exec .brk s = .next { s with
      pc := BitVec.ofNat 16 (hi.toNat * 256 + lo.toNat)
      sp := s.sp - 3
      flags := { s.flags with i := true }
      bus := b4.afterRead 0xFFFF hi
      cycleOut := count s false } ∧
    OtherBytesKept s.bus (b4.afterRead 0xFFFF hi) fun k =>
      k = stackByte s.sp ∨ k = stackByte (s.sp - 1) ∨ k = stackByte (s.sp - 2)

/-- 48_stack_system.md, R236 (general knowledge G3): RTI pulls the six flags, then the low byte
and the high byte of `pc`, without adding 1, and adds 3 to S. -/
def Obligations.RtiPullsFlagsAndPc : Prop :=
  ∀ s : State,
    let p := s.bus.answer (stackByte (s.sp + 1))
    let b1 := s.bus.afterRead (stackByte (s.sp + 1)) p
    let lo := b1.answer (stackByte (s.sp + 2))
    let b2 := b1.afterRead (stackByte (s.sp + 2)) lo
    let hi := b2.answer (stackByte (s.sp + 3))
    exec .rti s = .next { s with
      pc := BitVec.ofNat 16 (hi.toNat * 256 + lo.toNat)
      sp := s.sp + 3
      flags := { c := p.getLsbD 0, z := p.getLsbD 1, i := p.getLsbD 2, d := p.getLsbD 3,
                 b := s.flags.b, v := p.getLsbD 6, n := p.getLsbD 7 }
      bus := b2.afterRead (stackByte (s.sp + 3)) hi
      cycleOut := count s false } ∧
    OtherBytesKept s.bus (b2.afterRead (stackByte (s.sp + 3)) hi) fun _ => False

/-- 60_exceptions.md section 3 (R256; general knowledge G3, decision D18): an RTI at a state with the
S, the B and the flat RAM a BRK left restores every flag, I among them, and S, and continues at the
address after BRK's padding byte. -/
def Obligations.RtiUndoesItsBrk : Prop :=
  ∀ s t u : State, Memory.wf s.bus.ram = true →
    s.bus.isDevice (stackByte s.sp) = false → s.bus.isDevice (stackByte (s.sp - 1)) = false →
    s.bus.isDevice (stackByte (s.sp - 2)) = false →
    exec .brk s = .next t →
    u.sp = t.sp → u.flags.b = t.flags.b → u.bus.ram = t.bus.ram → u.bus.devices = t.bus.devices →
    ∃ v, exec .rti u = .next v ∧ v.flags = s.flags ∧ v.sp = s.sp ∧ v.pc = s.pc + 1

/-! ### Rules about the whole machine -/

/-- 60_exceptions.md section 1 (R251 to R253; decisions D1, D14): execute answers a next state exactly
for the modes the handler services, and otherwise the one fault InvalidAddressingMode with its mnemonic
and mode; every instruction fetch can produce is serviced. -/
def Obligations.ExecFaultsExactlyOnUnservicedModes : Prop :=
  ∀ (i : Instr) (s : State),
    (serviced i = true → ∃ t, exec i s = .next t) ∧
    (serviced i = false → exec i s = .fault (.invalidAddressingMode i.mnemonic i.mode)) ∧
    (i.wellFormed = true → serviced i = true)

/-- 60_exceptions.md section 1 (R253, the spec's own derivation): no run of any number of steps, from
any state, stops with a fault or a refusal. -/
def Obligations.NoRunStops : Prop := ∀ (k : Nat) (s : State), Safety.RunSafe k s

/-- 20_memory.md sections 1 and 7 (the canonical form is the model's choice, log entry 3): every step
keeps the memory in canonical form, every address inside the 16-bit space. -/
def Obligations.StepKeepsMemoryCanonical : Prop :=
  ∀ s t : State, Memory.wf s.bus.ram = true → step s = .next t → Memory.wf t.bus.ram = true

/-- 20_memory.md section 5 (R60, R63; FlatRAM is decision D12, log entry 4): from a state where flat
RAM holds what was last written and every read of it was answered so, over any initial image, a step
leads to such a state: no write is lost, merged or reordered, and every read, the fetch's too, sees
every earlier write. -/
def Obligations.StepKeepsBusCoherent : Prop :=
  ∀ (image : Word → Byte) (s t : State), BusCoherent image s.bus → step s = .next t →
    BusCoherent image t.bus

/-- 10_state.md section 4 (R27, decision D17): `flag.B` holds its power-on value for ever: no step and
no reset from any state changes it, so no core a caller can bring about, from any INIT over any bus, has
another. -/
def Obligations.BreakFlagNeverChanges : Prop :=
  (∀ s t : State, step s = .next t → t.flags.b = s.flags.b) ∧
  (∀ s : State, (resetCore s).flags.b = s.flags.b) ∧
  ∀ (init : Init) (bus : Bus) (s : State), Safety.Reachable init bus s → s.flags.b = init.flags.b

/-- 10_state.md section 4 (R26; that nothing writes or reads B is the spec's decision D17, that ADC and
SBC do not read D is D16, log entry 13): an instruction not named in a flag's "written by" column leaves
that flag unchanged, and one not named in its "read by" column does the same whatever the flag holds:
the two outcomes differ in that flag at most, and there only where the instruction does not write it. -/
def Obligations.FlagWritersAndReaders : Prop :=
  ∀ (i : Instr) (s : State) (f : Flag),
    (i.mnemonic ∉ f.writers → ∀ t, exec i s = .next t → f.get t.flags = f.get s.flags) ∧
    (i.mnemonic ∉ f.readers → ∀ x : Bool,
      exec i (f.put s x) =
        mapNext (fun t => if i.mnemonic ∈ f.writers then t else f.put t x) (exec i s))

/-- 10_state.md section 1 (R20, the "written by" column of its table; R23): only the listed
instructions change `pc` in execute, S, A, X or Y. STX and STY stand beside the shifts in Accumulator
mode only because WriteOperand writes A there (R119); fetch never pairs them with it. -/
def Obligations.RegisterWriters : Prop :=
  ∀ (i : Instr) (s t : State), exec i s = .next t →
    (i.mnemonic ∉ [.bcc, .bcs, .beq, .bmi, .bne, .bpl, .bvc, .bvs, .jmp, .jsr, .rts, .rti, .brk] →
      t.pc = s.pc) ∧
    (i.mnemonic ∉ [.jsr, .rts, .pha, .php, .pla, .plp, .brk, .rti, .txs] → t.sp = s.sp) ∧
    (i.mnemonic ∉ [.adc, .sbc, .and, .ora, .eor, .lda, .pla, .txa, .tya] →
      ¬ (i.mnemonic ∈ [.asl, .lsr, .rol, .ror, .stx, .sty] ∧ i.mode = .accumulator) → t.a = s.a) ∧
    (i.wellFormed = true → i.mnemonic ∈ [.stx, .sty] → i.mode ≠ .accumulator) ∧
    (i.mnemonic ∉ [.inx, .dex, .ldx, .tax, .tsx] → t.x = s.x) ∧
    (i.mnemonic ∉ [.iny, .dey, .ldy, .tay] → t.y = s.y) ∧
    t.ir = s.ir

/-- 20_memory.md section 3 (R56; no dummy accesses, decision D24): only the stores, the
read-modify-write instructions, JSR, PHA, PHP and BRK write to the bus; every other instruction leaves
the flat RAM as it is, and every access it makes is a read. -/
def Obligations.OnlyStoringInstructionsWrite : Prop :=
  ∀ (i : Instr) (s t : State), exec i s = .next t →
    i.mnemonic ∉ [.sta, .stx, .sty, .inc, .dec, .asl, .lsr, .rol, .ror, .jsr, .pha, .php, .brk] →
    t.bus.ram = s.bus.ram ∧
    ∃ reads, t.bus.history = reads ++ s.bus.history ∧ ∀ e ∈ reads, e.kind = .read

/-- 70_reset_and_hazards.md section 5 (R286): timing is an output, never an input: execute at a state
with any other latched cycle figure, page-cross flag and earlier count ends the same way in every
register, flag, memory byte and `pc`. -/
def Obligations.CycleFiguresDecideNothing : Prop :=
  ∀ (i : Instr) (s : State) (ir : Option Instruction) (n : Option Nat),
    mapNext (fun t => { t with ir := ir, cycleOut := n }) (exec i { s with ir := ir, cycleOut := n }) =
      mapNext (fun t => { t with ir := ir, cycleOut := n }) (exec i s)

/-- 70_reset_and_hazards.md section 5, 30_encoding.md section 6 (R287, R90; figures are general
knowledge G1, decision D15): a step returns the row's base count, or one more and only where the row's
page-cross flag is set; at most 7, and 0 exactly at an undefined byte. -/
def Obligations.StepReturnsTheRowsCycles : Prop :=
  ∀ s t : State, step s = .next t →
    ∃ n, t.cycleOut = some n ∧ n ≤ 7 ∧ (n = 0 ↔ isUndefinedOpcode (s.peek s.pc) = true) ∧
      (n = (rowOf (s.peek s.pc)).cycles ∨
        ((rowOf (s.peek s.pc)).pageCross = true ∧ n = (rowOf (s.peek s.pc)).cycles + 1))
end

