-- ==== Sys2Proof/Laws/State.lean ====
section
/-! SUPPORT. One lemma per field per update of State: what each shared operation leaves alone, and what it writes. -/

namespace Sys2Proof.Machine

/-! ### Operations that give a state -/

@[simp] theorem setZN_pc (v : Byte) (s : State) : (setZN v s).pc = s.pc := rfl
@[simp] theorem setZN_a (v : Byte) (s : State) : (setZN v s).a = s.a := rfl
@[simp] theorem setZN_x (v : Byte) (s : State) : (setZN v s).x = s.x := rfl
@[simp] theorem setZN_y (v : Byte) (s : State) : (setZN v s).y = s.y := rfl
@[simp] theorem setZN_sp (v : Byte) (s : State) : (setZN v s).sp = s.sp := rfl
@[simp] theorem setZN_ir (v : Byte) (s : State) : (setZN v s).ir = s.ir := rfl
@[simp] theorem setZN_bus (v : Byte) (s : State) : (setZN v s).bus = s.bus := rfl
@[simp] theorem setZN_cycleOut (v : Byte) (s : State) : (setZN v s).cycleOut = s.cycleOut := rfl
@[simp] theorem setZN_flags (v : Byte) (s : State) : (setZN v s).flags = { s.flags with z := v == 0, n := v.getLsbD 7 } := rfl

@[simp] theorem writeByte_pc (a : Word) (v : Byte) (s : State) : (writeByte a v s).pc = s.pc := rfl
@[simp] theorem writeByte_a (a : Word) (v : Byte) (s : State) : (writeByte a v s).a = s.a := rfl
@[simp] theorem writeByte_x (a : Word) (v : Byte) (s : State) : (writeByte a v s).x = s.x := rfl
@[simp] theorem writeByte_y (a : Word) (v : Byte) (s : State) : (writeByte a v s).y = s.y := rfl
@[simp] theorem writeByte_sp (a : Word) (v : Byte) (s : State) : (writeByte a v s).sp = s.sp := rfl
@[simp] theorem writeByte_flags (a : Word) (v : Byte) (s : State) : (writeByte a v s).flags = s.flags := rfl
@[simp] theorem writeByte_ir (a : Word) (v : Byte) (s : State) : (writeByte a v s).ir = s.ir := rfl
@[simp] theorem writeByte_cycleOut (a : Word) (v : Byte) (s : State) : (writeByte a v s).cycleOut = s.cycleOut := rfl
@[simp] theorem writeByte_bus (a : Word) (v : Byte) (s : State) : (writeByte a v s).bus = s.bus.afterWrite a v := rfl

@[simp] theorem push_pc (v : Byte) (s : State) : (push v s).pc = s.pc := rfl
@[simp] theorem push_a (v : Byte) (s : State) : (push v s).a = s.a := rfl
@[simp] theorem push_x (v : Byte) (s : State) : (push v s).x = s.x := rfl
@[simp] theorem push_y (v : Byte) (s : State) : (push v s).y = s.y := rfl
@[simp] theorem push_flags (v : Byte) (s : State) : (push v s).flags = s.flags := rfl
@[simp] theorem push_ir (v : Byte) (s : State) : (push v s).ir = s.ir := rfl
@[simp] theorem push_cycleOut (v : Byte) (s : State) : (push v s).cycleOut = s.cycleOut := rfl
@[simp] theorem push_bus (v : Byte) (s : State) : (push v s).bus = s.bus.afterWrite (stackAddr s.sp) v := rfl
@[simp] theorem push_sp (v : Byte) (s : State) : (push v s).sp = s.sp - 1 := rfl

@[simp] theorem setArithmetic_pc (r : AluResult) (s : State) : (setArithmetic r s).pc = s.pc := rfl
@[simp] theorem setArithmetic_x (r : AluResult) (s : State) : (setArithmetic r s).x = s.x := rfl
@[simp] theorem setArithmetic_y (r : AluResult) (s : State) : (setArithmetic r s).y = s.y := rfl
@[simp] theorem setArithmetic_sp (r : AluResult) (s : State) : (setArithmetic r s).sp = s.sp := rfl
@[simp] theorem setArithmetic_ir (r : AluResult) (s : State) : (setArithmetic r s).ir = s.ir := rfl
@[simp] theorem setArithmetic_bus (r : AluResult) (s : State) : (setArithmetic r s).bus = s.bus := rfl
@[simp] theorem setArithmetic_cycleOut (r : AluResult) (s : State) : (setArithmetic r s).cycleOut = s.cycleOut := rfl
@[simp] theorem setArithmetic_a (r : AluResult) (s : State) : (setArithmetic r s).a = r.value := rfl
@[simp] theorem setArithmetic_flags (r : AluResult) (s : State) : (setArithmetic r s).flags = { s.flags with c := r.carry, v := r.overflow, z := r.value == 0, n := r.value.getLsbD 7 } := rfl

@[simp] theorem setA_pc (v : Byte) (s : State) : (setA v s).pc = s.pc := rfl
@[simp] theorem setA_x (v : Byte) (s : State) : (setA v s).x = s.x := rfl
@[simp] theorem setA_y (v : Byte) (s : State) : (setA v s).y = s.y := rfl
@[simp] theorem setA_sp (v : Byte) (s : State) : (setA v s).sp = s.sp := rfl
@[simp] theorem setA_ir (v : Byte) (s : State) : (setA v s).ir = s.ir := rfl
@[simp] theorem setA_bus (v : Byte) (s : State) : (setA v s).bus = s.bus := rfl
@[simp] theorem setA_cycleOut (v : Byte) (s : State) : (setA v s).cycleOut = s.cycleOut := rfl
@[simp] theorem setA_a (v : Byte) (s : State) : (setA v s).a = v := rfl
@[simp] theorem setA_flags (v : Byte) (s : State) : (setA v s).flags = { s.flags with z := v == 0, n := v.getLsbD 7 } := rfl

@[simp] theorem setShifted_pc (r : Byte × Bool) (s : State) : (setShifted r s).pc = s.pc := rfl
@[simp] theorem setShifted_a (r : Byte × Bool) (s : State) : (setShifted r s).a = s.a := rfl
@[simp] theorem setShifted_x (r : Byte × Bool) (s : State) : (setShifted r s).x = s.x := rfl
@[simp] theorem setShifted_y (r : Byte × Bool) (s : State) : (setShifted r s).y = s.y := rfl
@[simp] theorem setShifted_sp (r : Byte × Bool) (s : State) : (setShifted r s).sp = s.sp := rfl
@[simp] theorem setShifted_ir (r : Byte × Bool) (s : State) : (setShifted r s).ir = s.ir := rfl
@[simp] theorem setShifted_bus (r : Byte × Bool) (s : State) : (setShifted r s).bus = s.bus := rfl
@[simp] theorem setShifted_cycleOut (r : Byte × Bool) (s : State) : (setShifted r s).cycleOut = s.cycleOut := rfl
@[simp] theorem setShifted_flags (r : Byte × Bool) (s : State) : (setShifted r s).flags = { s.flags with c := r.2, z := r.1 == 0, n := r.1.getLsbD 7 } := rfl

@[simp] theorem compareWith_pc (reg m : Byte) (s : State) : (compareWith reg m s).pc = s.pc := rfl
@[simp] theorem compareWith_a (reg m : Byte) (s : State) : (compareWith reg m s).a = s.a := rfl
@[simp] theorem compareWith_x (reg m : Byte) (s : State) : (compareWith reg m s).x = s.x := rfl
@[simp] theorem compareWith_y (reg m : Byte) (s : State) : (compareWith reg m s).y = s.y := rfl
@[simp] theorem compareWith_sp (reg m : Byte) (s : State) : (compareWith reg m s).sp = s.sp := rfl
@[simp] theorem compareWith_ir (reg m : Byte) (s : State) : (compareWith reg m s).ir = s.ir := rfl
@[simp] theorem compareWith_bus (reg m : Byte) (s : State) : (compareWith reg m s).bus = s.bus := rfl
@[simp] theorem compareWith_cycleOut (reg m : Byte) (s : State) : (compareWith reg m s).cycleOut = s.cycleOut := rfl
@[simp] theorem compareWith_flags (reg m : Byte) (s : State) : (compareWith reg m s).flags = compareFlags reg m s.flags := rfl

@[simp] theorem writeWord_pc (a v : Word) (s : State) : (writeWord a v s).pc = s.pc := rfl
@[simp] theorem writeWord_a (a v : Word) (s : State) : (writeWord a v s).a = s.a := rfl
@[simp] theorem writeWord_x (a v : Word) (s : State) : (writeWord a v s).x = s.x := rfl
@[simp] theorem writeWord_y (a v : Word) (s : State) : (writeWord a v s).y = s.y := rfl
@[simp] theorem writeWord_sp (a v : Word) (s : State) : (writeWord a v s).sp = s.sp := rfl
@[simp] theorem writeWord_flags (a v : Word) (s : State) : (writeWord a v s).flags = s.flags := rfl
@[simp] theorem writeWord_ir (a v : Word) (s : State) : (writeWord a v s).ir = s.ir := rfl
@[simp] theorem writeWord_cycleOut (a v : Word) (s : State) : (writeWord a v s).cycleOut = s.cycleOut := rfl
@[simp] theorem writeWord_bus (a v : Word) (s : State) : (writeWord a v s).bus = (s.bus.afterWrite a (loByte v)).afterWrite (a + 1) (hiByte v) := rfl

@[simp] theorem pushWord_pc (w : Word) (s : State) : (pushWord w s).pc = s.pc := by simp [pushWord]
@[simp] theorem pushWord_a (w : Word) (s : State) : (pushWord w s).a = s.a := by simp [pushWord]
@[simp] theorem pushWord_x (w : Word) (s : State) : (pushWord w s).x = s.x := by simp [pushWord]
@[simp] theorem pushWord_y (w : Word) (s : State) : (pushWord w s).y = s.y := by simp [pushWord]
@[simp] theorem pushWord_flags (w : Word) (s : State) : (pushWord w s).flags = s.flags := by simp [pushWord]
@[simp] theorem pushWord_ir (w : Word) (s : State) : (pushWord w s).ir = s.ir := by simp [pushWord]
@[simp] theorem pushWord_cycleOut (w : Word) (s : State) : (pushWord w s).cycleOut = s.cycleOut := by simp [pushWord]
@[simp] theorem pushWord_bus (w : Word) (s : State) : (pushWord w s).bus = (s.bus.afterWrite (stackAddr s.sp) (hiByte w)).afterWrite (stackAddr (s.sp - 1)) (loByte w) := by simp [pushWord]
@[simp] theorem pushWord_sp (w : Word) (s : State) : (pushWord w s).sp = s.sp - 1 - 1 := by simp [pushWord]

/-! ### Operations that give a value and a state -/

@[simp] theorem readByte_state_pc (a : Word) (s : State) : ((readByte a s).state).pc = s.pc := rfl
@[simp] theorem readByte_state_a (a : Word) (s : State) : ((readByte a s).state).a = s.a := rfl
@[simp] theorem readByte_state_x (a : Word) (s : State) : ((readByte a s).state).x = s.x := rfl
@[simp] theorem readByte_state_y (a : Word) (s : State) : ((readByte a s).state).y = s.y := rfl
@[simp] theorem readByte_state_sp (a : Word) (s : State) : ((readByte a s).state).sp = s.sp := rfl
@[simp] theorem readByte_state_flags (a : Word) (s : State) : ((readByte a s).state).flags = s.flags := rfl
@[simp] theorem readByte_state_ir (a : Word) (s : State) : ((readByte a s).state).ir = s.ir := rfl
@[simp] theorem readByte_state_cycleOut (a : Word) (s : State) : ((readByte a s).state).cycleOut = s.cycleOut := rfl
@[simp] theorem readByte_state_bus (a : Word) (s : State) : ((readByte a s).state).bus = s.bus.afterRead a (s.bus.answer a) := rfl

@[simp] theorem readWord_state_pc (a : Word) (s : State) : ((readWord a s).state).pc = s.pc := rfl
@[simp] theorem readWord_state_a (a : Word) (s : State) : ((readWord a s).state).a = s.a := rfl
@[simp] theorem readWord_state_x (a : Word) (s : State) : ((readWord a s).state).x = s.x := rfl
@[simp] theorem readWord_state_y (a : Word) (s : State) : ((readWord a s).state).y = s.y := rfl
@[simp] theorem readWord_state_sp (a : Word) (s : State) : ((readWord a s).state).sp = s.sp := rfl
@[simp] theorem readWord_state_flags (a : Word) (s : State) : ((readWord a s).state).flags = s.flags := rfl
@[simp] theorem readWord_state_ir (a : Word) (s : State) : ((readWord a s).state).ir = s.ir := rfl
@[simp] theorem readWord_state_cycleOut (a : Word) (s : State) : ((readWord a s).state).cycleOut = s.cycleOut := rfl

@[simp] theorem pull_state_pc (s : State) : ((pull s).state).pc = s.pc := rfl
@[simp] theorem pull_state_a (s : State) : ((pull s).state).a = s.a := rfl
@[simp] theorem pull_state_x (s : State) : ((pull s).state).x = s.x := rfl
@[simp] theorem pull_state_y (s : State) : ((pull s).state).y = s.y := rfl
@[simp] theorem pull_state_flags (s : State) : ((pull s).state).flags = s.flags := rfl
@[simp] theorem pull_state_ir (s : State) : ((pull s).state).ir = s.ir := rfl
@[simp] theorem pull_state_cycleOut (s : State) : ((pull s).state).cycleOut = s.cycleOut := rfl
@[simp] theorem pull_state_sp (s : State) : ((pull s).state).sp = s.sp + 1 := rfl

@[simp] theorem pullWord_state_pc (s : State) : ((pullWord s).state).pc = s.pc := by simp [pullWord]
@[simp] theorem pullWord_state_a (s : State) : ((pullWord s).state).a = s.a := by simp [pullWord]
@[simp] theorem pullWord_state_x (s : State) : ((pullWord s).state).x = s.x := by simp [pullWord]
@[simp] theorem pullWord_state_y (s : State) : ((pullWord s).state).y = s.y := by simp [pullWord]
@[simp] theorem pullWord_state_flags (s : State) : ((pullWord s).state).flags = s.flags := by simp [pullWord]
@[simp] theorem pullWord_state_ir (s : State) : ((pullWord s).state).ir = s.ir := by simp [pullWord]
@[simp] theorem pullWord_state_cycleOut (s : State) : ((pullWord s).state).cycleOut = s.cycleOut := by simp [pullWord]
@[simp] theorem pullWord_state_sp (s : State) : ((pullWord s).state).sp = s.sp + 1 + 1 := by simp [pullWord]

/-! ### Trap entry, trap return, reset -/

@[simp] theorem enterTrap_a (ret : Word) (s : State) : (enterTrap ret s).a = s.a := by simp [enterTrap]
@[simp] theorem enterTrap_x (ret : Word) (s : State) : (enterTrap ret s).x = s.x := by simp [enterTrap]
@[simp] theorem enterTrap_y (ret : Word) (s : State) : (enterTrap ret s).y = s.y := by simp [enterTrap]
@[simp] theorem enterTrap_ir (ret : Word) (s : State) : (enterTrap ret s).ir = s.ir := by simp [enterTrap]
@[simp] theorem enterTrap_cycleOut (ret : Word) (s : State) : (enterTrap ret s).cycleOut = s.cycleOut := by simp [enterTrap]
@[simp] theorem enterTrap_sp (ret : Word) (s : State) : (enterTrap ret s).sp = s.sp - 1 - 1 - 1 := by simp [enterTrap]
@[simp] theorem enterTrap_flags (ret : Word) (s : State) : (enterTrap ret s).flags = { s.flags with i := true } := by simp [enterTrap]

@[simp] theorem returnFromTrap_a (s : State) : (returnFromTrap s).a = s.a := by simp [returnFromTrap]
@[simp] theorem returnFromTrap_x (s : State) : (returnFromTrap s).x = s.x := by simp [returnFromTrap]
@[simp] theorem returnFromTrap_y (s : State) : (returnFromTrap s).y = s.y := by simp [returnFromTrap]
@[simp] theorem returnFromTrap_ir (s : State) : (returnFromTrap s).ir = s.ir := by simp [returnFromTrap]
@[simp] theorem returnFromTrap_cycleOut (s : State) : (returnFromTrap s).cycleOut = s.cycleOut := by simp [returnFromTrap]
@[simp] theorem returnFromTrap_sp (s : State) : (returnFromTrap s).sp = s.sp + 1 + 1 + 1 := by simp [returnFromTrap]
@[simp] theorem returnFromTrap_flags (s : State) : (returnFromTrap s).flags = unpackP (pull s).value s.flags := by simp [returnFromTrap]

@[simp] theorem resetCore_a (s : State) : (resetCore s).a = s.a := by simp [resetCore]
@[simp] theorem resetCore_x (s : State) : (resetCore s).x = s.x := by simp [resetCore]
@[simp] theorem resetCore_y (s : State) : (resetCore s).y = s.y := by simp [resetCore]
@[simp] theorem resetCore_sp (s : State) : (resetCore s).sp = s.sp := by simp [resetCore]
@[simp] theorem resetCore_flags (s : State) : (resetCore s).flags = s.flags := by simp [resetCore]
@[simp] theorem resetCore_cycleOut (s : State) : (resetCore s).cycleOut = s.cycleOut := by simp [resetCore]
@[simp] theorem resetCore_ir (s : State) : (resetCore s).ir = none := by simp [resetCore]

/-! ### What the bus keeps -/

@[simp] theorem afterRead_devices (b : Bus) (a : Word) (v : Byte) : (b.afterRead a v).devices = b.devices := rfl
@[simp] theorem afterRead_history (b : Bus) (a : Word) (v : Byte) :
    (b.afterRead a v).history = ⟨.read, a, v⟩ :: b.history := rfl
@[simp] theorem afterWrite_devices (b : Bus) (a : Word) (v : Byte) : (b.afterWrite a v).devices = b.devices := rfl
@[simp] theorem afterWrite_history (b : Bus) (a : Word) (v : Byte) :
    (b.afterWrite a v).history = ⟨.write, a, v⟩ :: b.history := rfl
@[simp] theorem afterRead_ram (b : Bus) (a : Word) (v : Byte) : (b.afterRead a v).ram = b.ram := rfl
@[simp] theorem afterWrite_ram (b : Bus) (a : Word) (v : Byte) :
    (b.afterWrite a v).ram = if b.isDevice a then b.ram else ramWrite b.ram a.toNat v := rfl
@[simp] theorem afterRead_isDevice (b : Bus) (a : Word) (v : Byte) (k : Word) :
    (b.afterRead a v).isDevice k = b.isDevice k := rfl
@[simp] theorem afterWrite_isDevice (b : Bus) (a : Word) (v : Byte) (k : Word) :
    (b.afterWrite a v).isDevice k = b.isDevice k := rfl

end Sys2Proof.Machine
end

