-- ==== Sys2Proof/Laws/Memory.lean ====
section
/-! SUPPORT. The laws of flat RAM: a read after a write, and that every write keeps the canonical form. -/

namespace Sys2Proof.Machine

theorem ramRead_consCell (a : Nat) (v : Byte) (rest : List Host.Cell) (k : Nat)
    (h : ramRead rest a = unlistedByte) :
    ramRead (consCell a v rest) k = if k = a then v else ramRead rest k := by
  unfold consCell
  by_cases hv : v = unlistedByte <;> by_cases hk : k = a
  · simp [hv, hk, h]
  · simp [hv, hk]
  · simp [hv, hk, ramRead]
  · simp [hv, hk, ramRead, Ne.symm hk]

/-- Below the first address of a canonical list everything is unlisted. -/
theorem ramRead_below {ram : List Host.Cell} {lo a : Nat} (h : ramWfFrom lo ram = true) (ha : a < lo) :
    ramRead ram a = unlistedByte := by
  induction ram generalizing lo with
  | nil => rfl
  | cons cell rest ih =>
    obtain ⟨k, w⟩ := cell
    simp only [ramWfFrom, Bool.and_eq_true, decide_eq_true_eq] at h
    simp only [ramRead, show ¬ k = a by omega, if_false]
    exact ih h.2 (by omega)

/-- A canonical list from a higher address on is canonical from a lower one on. -/
theorem ramWfFrom_mono {ram : List Host.Cell} {lo lo' : Nat} (h : ramWfFrom lo ram = true)
    (hl : lo' ≤ lo) : ramWfFrom lo' ram = true := by
  cases ram with
  | nil => rfl
  | cons cell rest =>
    simp only [ramWfFrom, Bool.and_eq_true, decide_eq_true_eq] at h ⊢
    exact ⟨⟨⟨by omega, h.1.1.2⟩, h.1.2⟩, h.2⟩

theorem ramWfFrom_consCell {rest : List Host.Cell} {a : Nat} {v : Byte} {lo : Nat}
    (h : ramWfFrom (a + 1) rest = true) (hlo : lo ≤ a) (ha : a < 65536) :
    ramWfFrom lo (consCell a v rest) = true := by
  unfold consCell
  split
  · exact ramWfFrom_mono h (by omega)
  · rename_i hv
    simp [ramWfFrom, hlo, ha, hv, h]

theorem ramWfFrom_ramWrite {ram : List Host.Cell} {lo a : Nat} {v : Byte}
    (h : ramWfFrom lo ram = true) (hlo : lo ≤ a) (ha : a < 65536) :
    ramWfFrom lo (ramWrite ram a v) = true := by
  induction ram generalizing lo with
  | nil => exact ramWfFrom_consCell rfl hlo ha
  | cons cell rest ih =>
    obtain ⟨k, w⟩ := cell
    have h' := h
    simp only [ramWfFrom, Bool.and_eq_true, decide_eq_true_eq] at h
    obtain ⟨⟨⟨hk, hk'⟩, hw⟩, hr⟩ := h
    unfold ramWrite
    split
    · refine ramWfFrom_consCell ?_ hlo ha
      simp only [ramWfFrom, Bool.and_eq_true, decide_eq_true_eq]
      exact ⟨⟨⟨by omega, hk'⟩, hw⟩, hr⟩
    · split
      · subst k
        exact ramWfFrom_consCell hr hlo ha
      · simp only [ramWfFrom, Bool.and_eq_true, decide_eq_true_eq]
        exact ⟨⟨⟨hk, hk'⟩, hw⟩, ih hr (by omega)⟩

/-- A write keeps the canonical form of the memory. -/
theorem ramWrite_wf {ram : List Host.Cell} (a : Word) (v : Byte) (h : Memory.wf ram = true) :
    Memory.wf (ramWrite ram a.toNat v) = true :=
  ramWfFrom_ramWrite h (by omega) (by have := a.isLt; omega)

/-- A read after a write: the written byte at its address, the old bytes elsewhere. -/
theorem ramRead_ramWrite {ram : List Host.Cell} {lo : Nat} (h : ramWfFrom lo ram = true) (a : Nat)
    (v : Byte) (k : Nat) : ramRead (ramWrite ram a v) k = if k = a then v else ramRead ram k := by
  induction ram generalizing lo with
  | nil => exact ramRead_consCell a v [] k rfl
  | cons cell rest ih =>
    obtain ⟨j, w⟩ := cell
    have h' := h
    simp only [ramWfFrom, Bool.and_eq_true, decide_eq_true_eq] at h
    obtain ⟨⟨⟨hj, hj'⟩, hw⟩, hr⟩ := h
    unfold ramWrite
    split
    · rename_i hlt
      have hc : ramWfFrom j ((j, w) :: rest) = true := by
        simp only [ramWfFrom, Bool.and_eq_true, decide_eq_true_eq]
        exact ⟨⟨⟨Nat.le_refl j, hj'⟩, hw⟩, hr⟩
      exact ramRead_consCell a v _ k (ramRead_below hc hlt)
    · split
      · rename_i hne heq
        subst j
        rw [ramRead_consCell a v rest k (ramRead_below hr (by omega))]
        simp only [ramRead]
        by_cases hk : k = a
        · simp [hk]
        · simp [hk, Ne.symm hk]
      · rename_i hne hne'
        simp only [ramRead, ih hr]
        by_cases hk : j = k
        · simp [hk, show ¬ k = a by omega]
        · simp [hk]

/-- A write leaves every other address alone, in a list of any form. -/
theorem ramRead_ramWrite_of_ne (ram : List Host.Cell) {a k : Nat} (v : Byte) (hk : k ≠ a) :
    ramRead (ramWrite ram a v) k = ramRead ram k := by
  have hc : ∀ rest : List Host.Cell, ramRead (consCell a v rest) k = ramRead rest k := by
    intro rest
    unfold consCell
    split
    · rfl
    · simp [ramRead, Ne.symm hk]
  induction ram with
  | nil => exact hc []
  | cons cell rest ih =>
    obtain ⟨j, w⟩ := cell
    unfold ramWrite
    split
    · exact hc _
    · split
      · rename_i heq
        subst heq
        rw [hc rest]
        simp [ramRead, Ne.symm hk]
      · simp only [ramRead, ih]

/-- Outside a device window the bus answers with the byte of flat RAM (20_memory.md R66). -/
theorem answer_of_not_device {b : Bus} {a : Word} (h : b.isDevice a = false) :
    b.answer a = ramRead b.ram a.toNat := by
  simp [Bus.answer, h]

theorem peek_of_not_device {s : State} {a : Word} (h : s.bus.isDevice a = false) :
    s.peek a = s.ramByte a := answer_of_not_device h

/-- The bytes of flat RAM after a write to the bus. -/
theorem afterWrite_ramRead {b : Bus} (hwf : Memory.wf b.ram = true) (a : Word) (v : Byte) (k : Word) :
    ramRead (b.afterWrite a v).ram k.toNat =
      if k = a ∧ b.isDevice a = false then v else ramRead b.ram k.toNat := by
  rw [afterWrite_ram]
  split
  · rename_i h
    simp [h]
  · rename_i h
    rw [ramRead_ramWrite hwf]
    simp [Bool.not_eq_true _ ▸ h, BitVec.toNat_inj]

/-- A write to the bus leaves every other byte of flat RAM alone. -/
theorem afterWrite_ramRead_of_ne (b : Bus) {a k : Word} (v : Byte) (hk : k ≠ a) :
    ramRead (b.afterWrite a v).ram k.toNat = ramRead b.ram k.toNat := by
  rw [afterWrite_ram]
  split
  · rfl
  · exact ramRead_ramWrite_of_ne _ _ fun h => hk (BitVec.toNat_inj.mp h)

theorem afterWrite_wf {b : Bus} (h : Memory.wf b.ram = true) (a : Word) (v : Byte) :
    Memory.wf (b.afterWrite a v).ram = true := by
  rw [afterWrite_ram]
  split
  · exact h
  · exact ramWrite_wf a v h

/-! ### Every memory operation keeps the canonical form -/

theorem readByte_wf {s : State} (h : Memory.wf s.bus.ram = true) (a : Word) :
    Memory.wf (readByte a s).state.bus.ram = true := h

theorem readWord_wf {s : State} (h : Memory.wf s.bus.ram = true) (a : Word) :
    Memory.wf (readWord a s).state.bus.ram = true := h

theorem pull_wf {s : State} (h : Memory.wf s.bus.ram = true) :
    Memory.wf (pull s).state.bus.ram = true := h

theorem pullWord_wf {s : State} (h : Memory.wf s.bus.ram = true) :
    Memory.wf (pullWord s).state.bus.ram = true := h

theorem writeByte_wf {s : State} (h : Memory.wf s.bus.ram = true) (a : Word) (v : Byte) :
    Memory.wf (writeByte a v s).bus.ram = true := afterWrite_wf h a v

theorem writeWord_wf {s : State} (h : Memory.wf s.bus.ram = true) (a v : Word) :
    Memory.wf (writeWord a v s).bus.ram = true := afterWrite_wf (afterWrite_wf h _ _) _ _

theorem push_wf {s : State} (h : Memory.wf s.bus.ram = true) (v : Byte) :
    Memory.wf (push v s).bus.ram = true := afterWrite_wf h _ _

theorem pushWord_wf {s : State} (h : Memory.wf s.bus.ram = true) (w : Word) :
    Memory.wf (pushWord w s).bus.ram = true := afterWrite_wf (afterWrite_wf h _ _) _ _

theorem placeBytes_wf {ram : List Host.Cell} (h : Memory.wf ram = true) (a : Word) (bytes : List Byte) :
    Memory.wf (placeBytes ram a bytes) = true := by
  induction bytes generalizing ram a with
  | nil => exact h
  | cons v rest ih => exact ih (ramWrite_wf a v h) (a + 1)

end Sys2Proof.Machine
end

