-- ==== Sys2Proof/Laws/Bus.lean ====
section
/-! SUPPORT. What one instruction can do to the bus, said once: a sequence of reads that each record the bus's answer, and of writes. -/

namespace Sys2Proof.Machine

/-- `Accesses b c`: the bus `c` is `b` after some reads and writes, every read recorded with what the
bus answered at that moment (20_memory.md R57, R60). -/
inductive Accesses (b : Bus) : Bus → Prop where
  | none : Accesses b b
  | read {c : Bus} (a : Word) : Accesses b c → Accesses b (c.afterRead a (c.answer a))
  | write {c : Bus} (a : Word) (v : Byte) : Accesses b c → Accesses b (c.afterWrite a v)

theorem Accesses.trans {b c d : Bus} (h : Accesses b c) (h' : Accesses c d) : Accesses b d := by
  induction h' with
  | none => exact h
  | read a _ ih => exact .read a ih
  | write a v _ ih => exact .write a v ih

/-- The windows never change. -/
theorem Accesses.devices {b c : Bus} (h : Accesses b c) : c.devices = b.devices := by
  induction h with
  | none => rfl
  | read a _ ih => exact ih
  | write a v _ ih => exact ih

theorem isDevice_of_devices {b c : Bus} (h : c.devices = b.devices) (a : Word) :
    c.isDevice a = b.isDevice a := by
  simp only [Bus.isDevice, h]

theorem Accesses.isDevice {b c : Bus} (h : Accesses b c) (a : Word) : c.isDevice a = b.isDevice a :=
  isDevice_of_devices h.devices a

/-- The canonical form of the memory is kept. -/
theorem Accesses.wf {b c : Bus} (h : Accesses b c) (hb : Memory.wf b.ram = true) :
    Memory.wf c.ram = true := by
  induction h with
  | none => exact hb
  | read a _ ih => exact ih
  | write a v _ ih => exact afterWrite_wf ih a v

/-- The history only grows. -/
theorem Accesses.history {b c : Bus} (h : Accesses b c) : ∃ l, c.history = l ++ b.history := by
  induction h with
  | none => exact ⟨[], rfl⟩
  | read a _ ih => obtain ⟨l, hl⟩ := ih; exact ⟨_ :: l, by simp [hl]; rfl⟩
  | write a v _ ih => obtain ⟨l, hl⟩ := ih; exact ⟨_ :: l, by simp [hl]; rfl⟩

/-! ### The shared operations -/

theorem readByte_accesses (a : Word) (s : State) : Accesses s.bus (readByte a s).state.bus :=
  .read a .none

theorem readWord_accesses (a : Word) (s : State) : Accesses s.bus (readWord a s).state.bus :=
  (readByte_accesses a s).trans (readByte_accesses (a + 1) _)

theorem writeByte_accesses (a : Word) (v : Byte) (s : State) : Accesses s.bus (writeByte a v s).bus :=
  .write a v .none

theorem push_accesses (v : Byte) (s : State) : Accesses s.bus (push v s).bus := .write _ v .none

theorem pushWord_accesses (w : Word) (s : State) : Accesses s.bus (pushWord w s).bus :=
  (push_accesses (hiByte w) s).trans (push_accesses (loByte w) _)

theorem pull_accesses (s : State) : Accesses s.bus (pull s).state.bus := .read _ .none

theorem pullWord_accesses (s : State) : Accesses s.bus (pullWord s).state.bus :=
  (pull_accesses s).trans (pull_accesses _)

theorem enterTrap_accesses (ret : Word) (s : State) : Accesses s.bus (enterTrap ret s).bus := by
  have h1 := pushWord_accesses ret s
  have h2 := push_accesses (packP true (pushWord ret s).flags) (pushWord ret s)
  exact (h1.trans h2).trans (readWord_accesses Config.brkVector
    { push (packP true (pushWord ret s).flags) (pushWord ret s) with flags := _ })

theorem returnFromTrap_accesses (s : State) : Accesses s.bus (returnFromTrap s).bus :=
  (pull_accesses s).trans (pullWord_accesses { (pull s).state with flags := _ })

end Sys2Proof.Machine
end

