-- ==== Sys2Proof/Laws/Decode.lean ====
section
/-! SUPPORT. The byte-order helpers undo each other; the decode table against the well-formedness check, row by row. -/

namespace Sys2Proof

@[simp] theorem wordOf_hiByte_loByte (w : Word) : wordOf (hiByte w) (loByte w) = w := by
  apply BitVec.eq_of_toNat_eq
  have := w.isLt
  simp only [wordOf, hiByte, loByte, BitVec.toNat_ofNat]
  omega

@[simp] theorem loByte_wordOf (hi lo : Byte) : loByte (wordOf hi lo) = lo := by
  apply BitVec.eq_of_toNat_eq
  have := hi.isLt
  have := lo.isLt
  simp only [wordOf, loByte, BitVec.toNat_ofNat]
  omega

@[simp] theorem hiByte_wordOf (hi lo : Byte) : hiByte (wordOf hi lo) = hi := by
  apply BitVec.eq_of_toNat_eq
  have := hi.isLt
  have := lo.isLt
  simp only [wordOf, hiByte, BitVec.toNat_ofNat]
  omega

/-- A statement about every byte, from the 256 numerals. -/
theorem forall_byte {p : Byte → Prop} (h : ∀ n : Fin 256, p (BitVec.ofFin n)) (b : Byte) : p b :=
  h b.toFin

/-- The bytes without a row are exactly the undefined ones (30_encoding.md R86, R87). -/
theorem definedRow_isSome (b : Byte) : (definedRow b).isSome = !isUndefinedOpcode b := by
  refine forall_byte (p := fun b => (definedRow b).isSome = !isUndefinedOpcode b) ?_ b
  decide +kernel

/-- A row found for a byte carries that byte, and its mode is one its mnemonic occurs with
(30_encoding.md R85, R92). -/
theorem definedRow_row {b : Byte} {r : OpcodeRow} (h : definedRow b = some r) :
    r.opcode = b ∧ r.mnemonic.modes.contains r.kind = true ∧ opcodeOf r.mnemonic r.kind = some b := by
  have key : ∀ n : Fin 256, (definedRow (BitVec.ofFin n)).all (fun r =>
      r.opcode == BitVec.ofFin n && r.mnemonic.modes.contains r.kind &&
        opcodeOf r.mnemonic r.kind == some (BitVec.ofFin n)) = true := by decide +kernel
  have := forall_byte (p := fun b => (definedRow b).all (fun r =>
      r.opcode == b && r.mnemonic.modes.contains r.kind && opcodeOf r.mnemonic r.kind == some b) = true)
    key b
  simp only [h, Option.all_some, Bool.and_eq_true, beq_iff_eq] at this
  exact ⟨this.1.1, this.1.2, this.2⟩

/-- The 56 mnemonics, listed (30_encoding.md R91). -/
def Mnemonic.all : List Mnemonic :=
  [.adc, .and, .asl, .bcc, .bcs, .beq, .bit, .bmi, .bne, .bpl, .brk, .bvc, .bvs, .clc,
   .cld, .cli, .clv, .cmp, .cpx, .cpy, .dec, .dex, .dey, .eor, .inc, .inx, .iny, .jmp,
   .jsr, .lda, .ldx, .ldy, .lsr, .nop, .ora, .pha, .php, .pla, .plp, .rol, .ror, .rti,
   .rts, .sbc, .sec, .sed, .sei, .sta, .stx, .sty, .tax, .tay, .tsx, .txa, .txs, .tya]

theorem Mnemonic.mem_all (mn : Mnemonic) : mn ∈ Mnemonic.all := by cases mn <;> decide

/-- The opcode byte of each mode a mnemonic occurs with has that mnemonic's row in that mode. -/
theorem modes_have_rows :
    (Mnemonic.all.all fun mn => mn.modes.all fun k => (opcodeOf mn k).any fun opc =>
      (definedRow opc).any fun r => r.mnemonic == mn && r.kind == k) = true := by decide +kernel

/-- Every mode a mnemonic occurs with has an opcode byte, whose row is that mnemonic in that mode. -/
theorem opcodeOf_row {mn : Mnemonic} {k : ModeKind} (h : mn.modes.contains k = true) :
    ∃ opc r, opcodeOf mn k = some opc ∧ definedRow opc = some r ∧ r.mnemonic = mn ∧ r.kind = k := by
  have h1 := List.all_eq_true.mp modes_have_rows mn mn.mem_all
  have key := List.all_eq_true.mp h1 k (List.contains_iff_mem.mp h)
  obtain ⟨opc, ho, h2⟩ := (Option.any_eq_true _ _).mp key
  obtain ⟨r, hr, h3⟩ := (Option.any_eq_true _ _).mp h2
  simp only [Bool.and_eq_true, beq_iff_eq] at h3
  exact ⟨opc, r, ho, hr, h3.1, h3.2⟩

/-- The thirteen variants, listed (30_encoding.md R82). -/
def ModeKind.all : List ModeKind :=
  [.implicit, .accumulator, .immediate, .zeroPage, .zeroPageX, .zeroPageY, .relative, .indirectX,
   .indirectY, .absolute, .absoluteX, .absoluteY, .indirect]

theorem ModeKind.mem_all (k : ModeKind) : k ∈ ModeKind.all := by cases k <;> decide

theorem opcodes_match_modes :
    (Mnemonic.all.all fun mn => ModeKind.all.all fun k =>
      (opcodeOf mn k).isSome == mn.modes.contains k) = true := by decide +kernel

/-- A mnemonic has an opcode byte for exactly the modes it occurs with (30_encoding.md R85, R92). -/
theorem opcodeOf_isSome (mn : Mnemonic) (k : ModeKind) :
    (opcodeOf mn k).isSome = mn.modes.contains k :=
  beq_iff_eq.mp (List.all_eq_true.mp (List.all_eq_true.mp opcodes_match_modes mn mn.mem_all) k k.mem_all)

/-- A mode is its variant with its operand bytes filled in. -/
theorem withOperand_operandBytes (m : Mode) :
    m.kind.withOperand (m.operandBytes.getD 0 0) (m.operandBytes.getD 1 0) = m := by
  cases m <;> simp [Mode.kind, ModeKind.withOperand, Mode.operandBytes]

theorem operandBytes_length (m : Mode) : m.operandBytes.length = m.kind.operandWidth := by
  cases m <;> rfl

/-- An instruction that is no fallback is its mnemonic with its mode, where the mode occurs. -/
theorem instr_mnemonic_mode {i : Instr} (h : i.modeOccurs = true)
    (hf : ∀ b, i ≠ .undefinedOpcode b) : i.mnemonic.instr i.mode = i := by
  cases i <;> first | rfl | exact absurd rfl (hf _)

/-- A mnemonic with a mode it occurs with keeps both as an instruction, and is no fallback. -/
theorem mnemonic_instr {mn : Mnemonic} {m : Mode} (h : mn.modes.contains m.kind = true) :
    (mn.instr m).mnemonic = mn ∧ (mn.instr m).mode = m ∧ ∀ b, mn.instr m ≠ .undefinedOpcode b := by
  cases mn <;> refine ⟨rfl, ?_, fun _ => by simp [Mnemonic.instr]⟩ <;> first
    | rfl
    | (cases m <;> simp [Mnemonic.modes, Mode.kind] at h; rfl)

theorem operandWidth_le (k : ModeKind) : k.operandWidth ≤ 2 := by cases k <;> decide

/-- A mode filled with as many bytes as its variant asks for carries exactly those bytes. -/
theorem withOperand_bytes {k : ModeKind} {ops : List Byte} (h : ops.length = k.operandWidth) :
    (k.withOperand (ops.getD 0 0) (ops.getD 1 0)).kind = k ∧
    (k.withOperand (ops.getD 0 0) (ops.getD 1 0)).operandBytes = ops := by
  match ops, h with
  | [], h => cases k <;> first | exact ⟨rfl, rfl⟩ | cases h
  | [_], h => cases k <;> first | exact ⟨rfl, rfl⟩ | cases h
  | [_, _], h =>
    cases k <;> first
      | (simp [ModeKind.operandWidth] at h; done)
      | simp [ModeKind.withOperand, Mode.kind, Mode.operandBytes]
  | _ :: _ :: _ :: _, h => have := operandWidth_le k; simp at h; omega

/-- The decoder on an opcode byte followed by its operand bytes and anything else. -/
theorem decode_cons {opc : Byte} {ops : List Byte} (rest : List Byte)
    (h : ops.length = (rowOf opc).kind.operandWidth) :
    decode (opc :: (ops ++ rest)) = .ok (instrOf opc (ops.getD 0 0) (ops.getD 1 0), rest) := by
  match ops, h with
  | [], h => simp only [decode, ← h, List.length_nil]; rfl
  | [_], h => simp only [decode, ← h, List.length_cons, List.length_nil]; rfl
  | [_, _], h => simp only [decode, ← h, List.length_cons, List.length_nil]; rfl
  | _ :: _ :: _ :: _, h => have := operandWidth_le (rowOf opc).kind; simp at h; omega

/-- What the decoder answers comes from an opcode byte and as many operand bytes as its row asks for. -/
theorem decode_inv {bytes rest : List Byte} {i : Instr} (h : decode bytes = .ok (i, rest)) :
    ∃ opc ops, bytes = opc :: (ops ++ rest) ∧ ops.length = (rowOf opc).kind.operandWidth ∧
      i = instrOf opc (ops.getD 0 0) (ops.getD 1 0) := by
  match bytes with
  | [] => simp [decode] at h
  | opc :: tl =>
    have hw := operandWidth_le (rowOf opc).kind
    generalize hk : (rowOf opc).kind.operandWidth = w at hw
    match w, hw, tl with
    | 0, _, tl => simp only [decode, hk] at h; cases h; exact ⟨opc, [], rfl, hk.symm, rfl⟩
    | 1, _, [] => simp only [decode, hk] at h; cases h
    | 1, _, a :: tl => simp only [decode, hk] at h; cases h; exact ⟨opc, [a], rfl, hk.symm, rfl⟩
    | 2, _, [] => simp only [decode, hk] at h; cases h
    | 2, _, [a] => simp only [decode, hk] at h; cases h
    | 2, _, a :: b :: tl =>
      simp only [decode, hk] at h; cases h; exact ⟨opc, [a, b], rfl, hk.symm, rfl⟩

end Sys2Proof
end

