-- ==== Sys2Proof/Laws/Bytes.lean ====
section
/-! SUPPORT. The bit operations of the machine as arithmetic on numbers, once for all proofs. -/

namespace Sys2Proof.Machine

/-- Bit 7 says the byte is at least 128. -/
theorem getLsbD_seven (v : Byte) : v.getLsbD 7 = decide (128 ≤ v.toNat) :=
  forall_byte (p := fun v => v.getLsbD 7 = decide (128 ≤ v.toNat)) (by decide +kernel) v

/-- Bit 6 as arithmetic. -/
theorem getLsbD_six (v : Byte) : v.getLsbD 6 = decide (64 ≤ v.toNat % 128) :=
  forall_byte (p := fun v => v.getLsbD 6 = decide (64 ≤ v.toNat % 128)) (by decide +kernel) v

/-- Bit 0 is the parity. -/
theorem getLsbD_zero (v : Byte) : v.getLsbD 0 = decide (v.toNat % 2 = 1) :=
  forall_byte (p := fun v => v.getLsbD 0 = decide (v.toNat % 2 = 1)) (by decide +kernel) v

theorem add_one_eq (v : Byte) : v + 1 = BitVec.ofNat 8 (v.toNat + 1) :=
  forall_byte (p := fun v => v + 1 = BitVec.ofNat 8 (v.toNat + 1)) (by decide +kernel) v

theorem sub_one_eq (v : Byte) : v - 1 = BitVec.ofNat 8 (v.toNat + 255) :=
  forall_byte (p := fun v => v - 1 = BitVec.ofNat 8 (v.toNat + 255)) (by decide +kernel) v

theorem shiftLeft_one_eq (v : Byte) : v <<< 1 = BitVec.ofNat 8 (2 * v.toNat) :=
  forall_byte (p := fun v => v <<< 1 = BitVec.ofNat 8 (2 * v.toNat)) (by decide +kernel) v

theorem shiftRight_one_eq (v : Byte) : v >>> 1 = BitVec.ofNat 8 (v.toNat / 2) :=
  forall_byte (p := fun v => v >>> 1 = BitVec.ofNat 8 (v.toNat / 2)) (by decide +kernel) v

/-- The one's complement of a byte. -/
theorem complement_toNat (v : Byte) : (v ^^^ 0xFF).toNat = 255 - v.toNat :=
  forall_byte (p := fun v => (v ^^^ 0xFF).toNat = 255 - v.toNat) (by decide +kernel) v

/-- A number modulo 256 is the same byte. -/
theorem byte_ofNat_mod (n : Nat) : BitVec.ofNat 8 (n % 256) = BitVec.ofNat 8 n :=
  BitVec.eq_of_toNat_eq (by simp)

/-- A byte as a signed number. -/
theorem byte_toInt (v : Byte) : v.toInt = if 128 ≤ v.toNat then (v.toNat : Int) - 256 else v.toNat := by
  rw [BitVec.toInt_eq_toNat_cond]
  split <;> split <;> omega

/-- Two bytes differ in bit 7. -/
theorem xor_getLsbD_seven (p q : Byte) :
    (p ^^^ q).getLsbD 7 = true ↔ (128 ≤ p.toNat ↔ ¬ 128 ≤ q.toNat) := by
  rw [BitVec.getLsbD_xor, getLsbD_seven, getLsbD_seven]
  by_cases h1 : 128 ≤ p.toNat <;> by_cases h2 : 128 ≤ q.toNat <;> simp [h1, h2]

theorem and_sign_ne_zero (v : Byte) : v &&& 0x80 ≠ 0 ↔ v.getLsbD 7 = true :=
  forall_byte (p := fun v => v &&& 0x80 ≠ 0 ↔ v.getLsbD 7 = true) (by decide +kernel) v

/-- The overflow bit: both operands have the sign the result has not. -/
theorem overflowOf_iff (p q r : Byte) : overflowOf p q r = true ↔
    (128 ≤ p.toNat ↔ ¬ 128 ≤ r.toNat) ∧ (128 ≤ q.toNat ↔ ¬ 128 ≤ r.toNat) := by
  rw [overflowOf, bne_iff_ne, and_sign_ne_zero, BitVec.getLsbD_and, Bool.and_eq_true,
    xor_getLsbD_seven, xor_getLsbD_seven]

@[simp] theorem zext16_toNat (v : Byte) : (zext16 v).toNat = v.toNat := by
  have := v.isLt
  simp only [zext16, BitVec.toNat_ofNat]
  omega

/-- The stack address is 0x0100 plus the pointer (20_memory.md R65). -/
theorem stackAddr_toNat (sp : Byte) : (stackAddr sp).toNat = 0x0100 + sp.toNat := by
  have := sp.isLt
  have h : (0x0100 : Word).toNat = 0x0100 := rfl
  rw [stackAddr, Config.stackBase, BitVec.toNat_add, zext16_toNat, h]
  omega

/-- Two stack pointers designate one address only if they are equal. -/
theorem stackAddr_inj {p q : Byte} : stackAddr p = stackAddr q ↔ p = q := by
  rw [← BitVec.toNat_inj, ← BitVec.toNat_inj, stackAddr_toNat, stackAddr_toNat]
  omega

end Sys2Proof.Machine
end

