-- ==== Sys2Proof/Laws/Operands.lean ====
section
/-! SUPPORT. Everything the resolver and the shared handler shapes can do, said once. -/

namespace Sys2Proof.Machine

/-- `EffAddr` answers for the modes that name a memory cell, faults for the others, and touches the
bus alone, by reads that leave flat RAM as it was (40_address_resolver.md R121, R124, R126). -/
theorem effAddr_cases (mn : Mnemonic) (m : Mode) (s : State) :
    (m.isCell = false ∧ effAddr mn m s = .error (.invalidAddressingMode mn m)) ∨
    (m.isCell = true ∧ ∃ a c b, effAddr mn m s = .ok ⟨a, c, { s with bus := b }⟩ ∧
      Accesses s.bus b ∧ b.ram = s.bus.ram) := by
  cases m
  case implicit => exact .inl ⟨rfl, rfl⟩
  case accumulator => exact .inl ⟨rfl, rfl⟩
  case immediate => exact .inl ⟨rfl, rfl⟩
  case relative => exact .inl ⟨rfl, rfl⟩
  case indirect => exact .inl ⟨rfl, rfl⟩
  case indirectX o =>
    exact .inr ⟨rfl, _, _, _, rfl, readWord_accesses _ s, rfl⟩
  case indirectY o =>
    exact .inr ⟨rfl, _, _, _, rfl, readWord_accesses _ s, rfl⟩
  all_goals exact .inr ⟨rfl, _, _, _, rfl, .none, rfl⟩

/-- `ReadOperand` answers for its modes and faults for the others; it changes the bus alone, and not
flat RAM (40_address_resolver.md R122, R124, R126). -/
theorem readOperand_cases (mn : Mnemonic) (m : Mode) (s : State) :
    (m.isSource = false ∧ readOperand mn m s = .error (.invalidAddressingMode mn m)) ∨
    (m.isSource = true ∧ ∃ v c b, readOperand mn m s = .ok ⟨v, c, { s with bus := b }⟩ ∧
      Accesses s.bus b ∧ b.ram = s.bus.ram) := by
  have he := effAddr_cases mn m s
  cases m
  case immediate o => exact .inr ⟨rfl, _, _, _, rfl, .none, rfl⟩
  case accumulator => exact .inr ⟨rfl, _, _, _, rfl, .none, rfl⟩
  case implicit => exact .inl ⟨rfl, rfl⟩
  case relative => exact .inl ⟨rfl, rfl⟩
  case indirect => exact .inl ⟨rfl, rfl⟩
  all_goals
    obtain ⟨h, _⟩ | ⟨_, a, c, b, hr, hb, hram⟩ := he
    · cases h
    · refine .inr ⟨rfl, b.answer a, c, _, ?_, hb.trans (.read a .none), hram⟩
      simp only [readOperand, hr]
      rfl

/-- `WriteOperand` stores one byte at the effective address, or writes A, or faults
(40_address_resolver.md R123, R124, R126). -/
theorem writeOperand_cases (mn : Mnemonic) (m : Mode) (v : Byte) (s : State) :
    (m = .accumulator ∧ writeOperand mn m v s = .ok { s with a := v }) ∨
    (m ≠ .accumulator ∧ m.isCell = false ∧
      writeOperand mn m v s = .error (.invalidAddressingMode mn m)) ∨
    (m.isCell = true ∧ ∃ a c b, effAddr mn m s = .ok ⟨a, c, { s with bus := b }⟩ ∧
      Accesses s.bus b ∧ b.ram = s.bus.ram ∧
      writeOperand mn m v s = .ok { s with bus := b.afterWrite a v }) := by
  have he := effAddr_cases mn m s
  cases m
  case accumulator => exact .inl ⟨rfl, rfl⟩
  case immediate => exact .inr (.inl ⟨by simp, rfl, rfl⟩)
  case implicit => exact .inr (.inl ⟨by simp, rfl, rfl⟩)
  case relative => exact .inr (.inl ⟨by simp, rfl, rfl⟩)
  case indirect => exact .inr (.inl ⟨by simp, rfl, rfl⟩)
  all_goals
    obtain ⟨h, _⟩ | ⟨_, a, c, b, hr, hb, hram⟩ := he
    · cases h
    · refine .inr (.inr ⟨rfl, a, c, b, hr, hb, hram, ?_⟩)
      simp only [writeOperand, hr]
      rfl

/-- The cycle count execute returns for the latched instruction (70_reset_and_hazards.md R287). -/
def returned (s : State) (crossed : Bool) : Option Nat := s.ir.map fun ir => cyclesOf ir crossed

theorem complete_eq (crossed : Bool) (s : State) :
    complete crossed s = .next { s with cycleOut := returned s crossed } := rfl

/-- A reading handler faults for a mode `ReadOperand` rejects, and otherwise completes with `k` of
the operand, at a state that differs from the first in the bus alone. -/
theorem withOperand_cases (mn : Mnemonic) (m : Mode) (s : State) (k : Byte → State → State) :
    (m.isSource = false ∧ withOperand mn m s k = .fault (.invalidAddressingMode mn m)) ∨
    (m.isSource = true ∧ ∃ v c b, readOperand mn m s = .ok ⟨v, c, { s with bus := b }⟩ ∧
      Accesses s.bus b ∧ b.ram = s.bus.ram ∧
      withOperand mn m s k = complete c (k v { s with bus := b })) := by
  obtain ⟨h, hr⟩ | ⟨h, v, c, b, hr, hb, hram⟩ := readOperand_cases mn m s
  · exact .inl ⟨h, by simp only [withOperand, hr]⟩
  · exact .inr ⟨h, v, c, b, hr, hb, hram, by simp only [withOperand, hr]⟩

/-- A read-modify-write handler on memory faults for a mode that names no cell, and otherwise reads
the effective address once and writes the new byte to it. -/
theorem modifyMemory_cases (mn : Mnemonic) (m : Mode) (s : State) (f : Byte → Byte)
    (k : Byte → State → State) :
    (m.isCell = false ∧ modifyMemory mn m s f k = .fault (.invalidAddressingMode mn m)) ∨
    (m.isCell = true ∧ ∃ a c b, effAddr mn m s = .ok ⟨a, c, { s with bus := b }⟩ ∧
      Accesses s.bus b ∧ b.ram = s.bus.ram ∧
      modifyMemory mn m s f k = complete c (k (b.answer a)
        { s with bus := (b.afterRead a (b.answer a)).afterWrite a (f (b.answer a)) })) := by
  obtain ⟨h, hr⟩ | ⟨h, a, c, b, hr, hb, hram⟩ := effAddr_cases mn m s
  · exact .inl ⟨h, by simp only [modifyMemory, hr]⟩
  · refine .inr ⟨h, a, c, b, hr, hb, hram, ?_⟩
    simp only [modifyMemory, hr]
    rfl

/-- A storing handler: what `WriteOperand` does, then the end of execute. -/
theorem storeOperand_cases (mn : Mnemonic) (m : Mode) (v : Byte) (s : State) :
    (m = .accumulator ∧ storeOperand mn m v s = complete false { s with a := v }) ∨
    (m ≠ .accumulator ∧ m.isCell = false ∧
      storeOperand mn m v s = .fault (.invalidAddressingMode mn m)) ∨
    (m.isCell = true ∧ ∃ a c b, effAddr mn m s = .ok ⟨a, c, { s with bus := b }⟩ ∧
      Accesses s.bus b ∧ b.ram = s.bus.ram ∧
      storeOperand mn m v s = complete false { s with bus := b.afterWrite a v }) := by
  obtain ⟨h, hr⟩ | ⟨h, h', hr⟩ | ⟨h, a, c, b, he, hb, hram, hr⟩ := writeOperand_cases mn m v s
  · exact .inl ⟨h, by simp only [storeOperand, hr]⟩
  · exact .inr (.inl ⟨h, h', by simp only [storeOperand, hr]⟩)
  · exact .inr (.inr ⟨h, a, c, b, he, hb, hram, by simp only [storeOperand, hr]⟩)

end Sys2Proof.Machine
end

