-- ==== Sys2Proof/Laws/PerInstr.lean ====
section
/-! SUPPORT. For every instruction: the encoder has bytes for exactly the well-formed ones (30_encoding.md R85, R92). One lemma per constructor of Instr. -/

namespace Sys2Proof.Laws.EncoderAccepts

/-- The encoder gives bytes exactly where the well-formedness check accepts. -/
def Statement (i : Instr) : Prop := (encode i).isSome = i.wellFormed

/-- The statement of an instruction that is encoded through the opcode table. -/
theorem of_table {i : Instr}
    (h : encode i = (opcodeOf i.mnemonic i.mode.kind).map fun opc => opc :: i.mode.operandBytes)
    (hu : i.opcodeIsUndefined = true) : Statement i := by
  unfold Statement Instr.wellFormed Instr.modeOccurs
  rw [h, hu, Option.isSome_map, opcodeOf_isSome, Bool.and_true]

theorem adc (m : Mode) : Statement (.adc m) := of_table rfl rfl

theorem sbc (m : Mode) : Statement (.sbc m) := of_table rfl rfl

theorem and (m : Mode) : Statement (.and m) := of_table rfl rfl

theorem ora (m : Mode) : Statement (.ora m) := of_table rfl rfl

theorem eor (m : Mode) : Statement (.eor m) := of_table rfl rfl

theorem asl (m : Mode) : Statement (.asl m) := of_table rfl rfl

theorem lsr (m : Mode) : Statement (.lsr m) := of_table rfl rfl

theorem rol (m : Mode) : Statement (.rol m) := of_table rfl rfl

theorem ror (m : Mode) : Statement (.ror m) := of_table rfl rfl

theorem bcc (m : Mode) : Statement (.bcc m) := of_table rfl rfl

theorem bcs (m : Mode) : Statement (.bcs m) := of_table rfl rfl

theorem beq (m : Mode) : Statement (.beq m) := of_table rfl rfl

theorem bmi (m : Mode) : Statement (.bmi m) := of_table rfl rfl

theorem bne (m : Mode) : Statement (.bne m) := of_table rfl rfl

theorem bpl (m : Mode) : Statement (.bpl m) := of_table rfl rfl

theorem bvc (m : Mode) : Statement (.bvc m) := of_table rfl rfl

theorem bvs (m : Mode) : Statement (.bvs m) := of_table rfl rfl

theorem cmp (m : Mode) : Statement (.cmp m) := of_table rfl rfl

theorem cpx (m : Mode) : Statement (.cpx m) := of_table rfl rfl

theorem cpy (m : Mode) : Statement (.cpy m) := of_table rfl rfl

theorem bit (m : Mode) : Statement (.bit m) := of_table rfl rfl

theorem inc (m : Mode) : Statement (.inc m) := of_table rfl rfl

theorem dec (m : Mode) : Statement (.dec m) := of_table rfl rfl

theorem inx : Statement .inx := of_table rfl rfl

theorem iny : Statement .iny := of_table rfl rfl

theorem dex : Statement .dex := of_table rfl rfl

theorem dey : Statement .dey := of_table rfl rfl

theorem jmp (m : Mode) : Statement (.jmp m) := of_table rfl rfl

theorem jsr (m : Mode) : Statement (.jsr m) := of_table rfl rfl

theorem rts : Statement .rts := of_table rfl rfl

theorem clc : Statement .clc := of_table rfl rfl

theorem cld : Statement .cld := of_table rfl rfl

theorem cli : Statement .cli := of_table rfl rfl

theorem clv : Statement .clv := of_table rfl rfl

theorem sec : Statement .sec := of_table rfl rfl

theorem sed : Statement .sed := of_table rfl rfl

theorem sei : Statement .sei := of_table rfl rfl

theorem nop : Statement .nop := of_table rfl rfl

theorem lda (m : Mode) : Statement (.lda m) := of_table rfl rfl

theorem ldx (m : Mode) : Statement (.ldx m) := of_table rfl rfl

theorem ldy (m : Mode) : Statement (.ldy m) := of_table rfl rfl

theorem sta (m : Mode) : Statement (.sta m) := of_table rfl rfl

theorem stx (m : Mode) : Statement (.stx m) := of_table rfl rfl

theorem sty (m : Mode) : Statement (.sty m) := of_table rfl rfl

theorem tax : Statement .tax := of_table rfl rfl

theorem tay : Statement .tay := of_table rfl rfl

theorem tsx : Statement .tsx := of_table rfl rfl

theorem txa : Statement .txa := of_table rfl rfl

theorem txs : Statement .txs := of_table rfl rfl

theorem tya : Statement .tya := of_table rfl rfl

theorem pha : Statement .pha := of_table rfl rfl

theorem php : Statement .php := of_table rfl rfl

theorem pla : Statement .pla := of_table rfl rfl

theorem plp : Statement .plp := of_table rfl rfl

theorem brk : Statement .brk := of_table rfl rfl

theorem rti : Statement .rti := of_table rfl rfl

theorem undefinedOpcode (opcode : Byte) : Statement (.undefinedOpcode opcode) := by
  have h := definedRow_isSome opcode
  unfold Statement Instr.wellFormed encode
  cases hb : isUndefinedOpcode opcode
  · simp [h, hb, Instr.opcodeIsUndefined]
  · simp [h, hb, Instr.opcodeIsUndefined]
    rfl

end Sys2Proof.Laws.EncoderAccepts
end

