-- ==== Sys2Proof/Laws/Step.lean ====
section
/-! SUPPORT. What execute, fetch and a step can do, said once over all instructions. -/

namespace Sys2Proof.Machine

/-- What every execute keeps: the bus moves by recorded accesses, the latch stays, and B stays
(20_memory.md R57, 10_state.md R27, R28). -/
def Kept (s t : State) : Prop :=
  Accesses s.bus t.bus ∧ t.ir = s.ir ∧ t.flags.b = s.flags.b

/-- The two ends of an execute: a next state that keeps what every execute keeps, or the fault of a
handler that cannot service the mode (60_exceptions.md R251). -/
def Ends (mn : Mnemonic) (m : Mode) (s : State) (o : Out) : Prop :=
  (∃ t, o = .next t ∧ Kept s t) ∨ o = .fault (.invalidAddressingMode mn m)

theorem complete_ends (mn : Mnemonic) (m : Mode) (crossed : Bool) {s t : State} (h : Kept s t) :
    Ends mn m s (complete crossed t) := .inl ⟨_, complete_eq crossed t, h⟩

theorem withOperand_ends (mn : Mnemonic) (m : Mode) (s : State) {k : Byte → State → State}
    (hk : ∀ v t, (k v t).bus = t.bus ∧ (k v t).ir = t.ir ∧ (k v t).flags.b = t.flags.b) :
    Ends mn m s (withOperand mn m s k) := by
  obtain ⟨-, h⟩ | ⟨-, v, c, b, -, hb, -, h⟩ := withOperand_cases mn m s k
  · exact .inr h
  · rw [h]
    obtain ⟨h1, h2, h3⟩ := hk v { s with bus := b }
    exact complete_ends mn m c ⟨h1 ▸ hb, h2, h3⟩

theorem modifyMemory_ends (mn : Mnemonic) (m : Mode) (s : State) {f : Byte → Byte}
    {k : Byte → State → State}
    (hk : ∀ v t, (k v t).bus = t.bus ∧ (k v t).ir = t.ir ∧ (k v t).flags.b = t.flags.b) :
    Ends mn m s (modifyMemory mn m s f k) := by
  obtain ⟨-, h⟩ | ⟨-, a, c, b, -, hb, -, h⟩ := modifyMemory_cases mn m s f k
  · exact .inr h
  · rw [h]
    obtain ⟨h1, h2, h3⟩ := hk (b.answer a)
      { s with bus := (b.afterRead a (b.answer a)).afterWrite a (f (b.answer a)) }
    exact complete_ends mn m c ⟨h1 ▸ (Accesses.write a _ (.read a hb)), h2, h3⟩

theorem storeOperand_ends (mn : Mnemonic) (m : Mode) (v : Byte) (s : State) :
    Ends mn m s (storeOperand mn m v s) := by
  obtain ⟨-, h⟩ | ⟨-, -, h⟩ | ⟨-, a, c, b, -, hb, -, h⟩ := storeOperand_cases mn m v s
  · rw [h]; exact complete_ends mn m false ⟨.none, rfl, rfl⟩
  · exact .inr h
  · rw [h]; exact complete_ends mn m false ⟨.write a v hb, rfl, rfl⟩

theorem readModifyWrite_ends (mn : Mnemonic) (f : Byte → Bool → Byte × Bool) (m : Mode) (s : State) :
    Ends mn m s (readModifyWrite mn f m s) := by
  by_cases hm : m = .accumulator
  · subst hm; exact complete_ends mn _ false ⟨.none, rfl, rfl⟩
  · have : readModifyWrite mn f m s = modifyMemory mn m s (fun v => (f v s.flags.c).1)
        fun v t => setShifted (f v s.flags.c) t := by
      cases m <;> first | rfl | exact absurd rfl hm
    rw [this]
    exact modifyMemory_ends mn m s fun _ _ => ⟨rfl, rfl, rfl⟩

theorem branchIf_ends (mn : Mnemonic) (cond : Bool) (m : Mode) (s : State) :
    Ends mn m s (branchIf mn cond m s) := by
  cases m
  case relative o =>
    refine complete_ends mn _ false ?_
    cases cond <;> exact ⟨.none, rfl, rfl⟩
  all_goals exact .inr rfl

theorem execJmp_ends (m : Mode) (s : State) : Ends .jmp m s (execJmp m s) := by
  cases m
  case absolute w => exact complete_ends .jmp _ false ⟨.none, rfl, rfl⟩
  case indirect w => exact complete_ends .jmp _ false ⟨readWord_accesses w s, rfl, rfl⟩
  all_goals exact .inr rfl

theorem execJsr_ends (m : Mode) (s : State) : Ends .jsr m s (execJsr m s) := by
  cases m
  case absolute w => exact complete_ends .jsr _ false ⟨pushWord_accesses _ s, by simp, by simp⟩
  all_goals exact .inr rfl

/-- Every execute ends in a next state that keeps what every execute keeps, or in the one fault. -/
theorem exec_ends (i : Instr) (s : State) : Ends i.mnemonic i.mode s (exec i s) := by
  cases i
  case adc m =>
    unfold exec execAdc
    exact withOperand_ends _ m s fun _ _ => ⟨rfl, rfl, rfl⟩
  case sbc m =>
    unfold exec execSbc
    exact withOperand_ends _ m s fun _ _ => ⟨rfl, rfl, rfl⟩
  case and m =>
    unfold exec execAnd
    exact withOperand_ends _ m s fun _ _ => ⟨rfl, rfl, rfl⟩
  case ora m =>
    unfold exec execOra
    exact withOperand_ends _ m s fun _ _ => ⟨rfl, rfl, rfl⟩
  case eor m =>
    unfold exec execEor
    exact withOperand_ends _ m s fun _ _ => ⟨rfl, rfl, rfl⟩
  case asl m => exact readModifyWrite_ends _ _ m s
  case lsr m => exact readModifyWrite_ends _ _ m s
  case rol m => exact readModifyWrite_ends _ _ m s
  case ror m => exact readModifyWrite_ends _ _ m s
  case bcc m => exact branchIf_ends _ _ m s
  case bcs m => exact branchIf_ends _ _ m s
  case beq m => exact branchIf_ends _ _ m s
  case bmi m => exact branchIf_ends _ _ m s
  case bne m => exact branchIf_ends _ _ m s
  case bpl m => exact branchIf_ends _ _ m s
  case bvc m => exact branchIf_ends _ _ m s
  case bvs m => exact branchIf_ends _ _ m s
  case cmp m =>
    unfold exec execCmp
    exact withOperand_ends _ m s fun _ _ => ⟨rfl, rfl, rfl⟩
  case cpx m =>
    unfold exec execCpx
    exact withOperand_ends _ m s fun _ _ => ⟨rfl, rfl, rfl⟩
  case cpy m =>
    unfold exec execCpy
    exact withOperand_ends _ m s fun _ _ => ⟨rfl, rfl, rfl⟩
  case bit m =>
    unfold exec execBit
    exact withOperand_ends _ m s fun _ _ => ⟨rfl, rfl, rfl⟩
  case inc m =>
    unfold exec execInc
    exact modifyMemory_ends _ m s fun _ _ => ⟨rfl, rfl, rfl⟩
  case dec m =>
    unfold exec execDec
    exact modifyMemory_ends _ m s fun _ _ => ⟨rfl, rfl, rfl⟩
  case inx => exact complete_ends _ _ false ⟨.none, rfl, rfl⟩
  case iny => exact complete_ends _ _ false ⟨.none, rfl, rfl⟩
  case dex => exact complete_ends _ _ false ⟨.none, rfl, rfl⟩
  case dey => exact complete_ends _ _ false ⟨.none, rfl, rfl⟩
  case jmp m => exact execJmp_ends m s
  case jsr m => exact execJsr_ends m s
  case rts => exact complete_ends _ _ false ⟨pullWord_accesses s, by simp, by simp⟩
  case clc => exact complete_ends _ _ false ⟨.none, rfl, rfl⟩
  case cld => exact complete_ends _ _ false ⟨.none, rfl, rfl⟩
  case cli => exact complete_ends _ _ false ⟨.none, rfl, rfl⟩
  case clv => exact complete_ends _ _ false ⟨.none, rfl, rfl⟩
  case sec => exact complete_ends _ _ false ⟨.none, rfl, rfl⟩
  case sed => exact complete_ends _ _ false ⟨.none, rfl, rfl⟩
  case sei => exact complete_ends _ _ false ⟨.none, rfl, rfl⟩
  case nop => exact complete_ends _ _ false ⟨.none, rfl, rfl⟩
  case lda m =>
    unfold exec execLda
    exact withOperand_ends _ m s fun _ _ => ⟨rfl, rfl, rfl⟩
  case ldx m =>
    unfold exec execLdx
    exact withOperand_ends _ m s fun _ _ => ⟨rfl, rfl, rfl⟩
  case ldy m =>
    unfold exec execLdy
    exact withOperand_ends _ m s fun _ _ => ⟨rfl, rfl, rfl⟩
  case sta m => exact storeOperand_ends _ m _ s
  case stx m => exact storeOperand_ends _ m _ s
  case sty m => exact storeOperand_ends _ m _ s
  case tax => exact complete_ends _ _ false ⟨.none, rfl, rfl⟩
  case tay => exact complete_ends _ _ false ⟨.none, rfl, rfl⟩
  case tsx => exact complete_ends _ _ false ⟨.none, rfl, rfl⟩
  case txa => exact complete_ends _ _ false ⟨.none, rfl, rfl⟩
  case txs => exact complete_ends _ _ false ⟨.none, rfl, rfl⟩
  case tya => exact complete_ends _ _ false ⟨.none, rfl, rfl⟩
  case pha => exact complete_ends _ _ false ⟨push_accesses _ s, rfl, rfl⟩
  case php => exact complete_ends _ _ false ⟨push_accesses _ s, rfl, rfl⟩
  case pla => exact complete_ends _ _ false ⟨pull_accesses s, rfl, rfl⟩
  case plp => exact complete_ends _ _ false ⟨pull_accesses s, rfl, rfl⟩
  case brk => exact complete_ends _ _ false ⟨enterTrap_accesses _ s, by simp, by simp⟩
  case rti => exact complete_ends _ _ false ⟨returnFromTrap_accesses s, by simp, by simp [unpackP]⟩
  case undefinedOpcode b => exact complete_ends _ _ false ⟨.none, rfl, rfl⟩

/-- A next state of execute keeps what every execute keeps. -/
theorem exec_kept {i : Instr} {s t : State} (h : exec i s = .next t) : Kept s t := by
  obtain ⟨u, hu, hk⟩ | hf := exec_ends i s
  · rw [h] at hu
    cases hu
    exact hk
  · rw [h] at hf
    cases hf

/-! ### Fetch (30_encoding.md R83) -/

theorem fetchOperand_state (width : Nat) (at' : Word) (s : State) :
    ∃ b, (fetchOperand width at' s).state = { s with bus := b } ∧ Accesses s.bus b ∧
      b.ram = s.bus.ram := by
  match width with
  | 0 => exact ⟨_, rfl, .none, rfl⟩
  | 1 => exact ⟨_, rfl, readByte_accesses at' s, rfl⟩
  | n + 2 =>
    exact ⟨_, rfl, (readByte_accesses at' s).trans (readByte_accesses (at' + 1) _), rfl⟩

/-- Fetch writes `pc`, the latch and the history of reads, and nothing else (30_encoding.md R83). -/
theorem fetch_state (s : State) :
    ∃ b, (fetch s).state =
        { s with
          pc := s.pc + 1 + BitVec.ofNat 16 (rowOf (s.peek s.pc)).kind.operandWidth
          ir := some ⟨(fetch s).value, (rowOf (s.peek s.pc)).cycles, (rowOf (s.peek s.pc)).pageCross⟩
          bus := b } ∧
      Accesses s.bus b ∧ b.ram = s.bus.ram := by
  obtain ⟨b, hb, hacc, hram⟩ := fetchOperand_state
    (rowOf (readByte s.pc s).value).kind.operandWidth (s.pc + 1) (readByte s.pc s).state
  refine ⟨b, ?_, (readByte_accesses s.pc s).trans hacc, hram⟩
  simp only [fetch, hb]
  rfl

/-- A step that answers a next state: the bus moves by recorded accesses, and B stays. -/
theorem step_kept {s t : State} (h : step s = .next t) :
    Accesses s.bus t.bus ∧ t.flags.b = s.flags.b ∧ t.ir = (fetch s).state.ir := by
  obtain ⟨b, hb, hacc, -⟩ := fetch_state s
  obtain ⟨h1, h2, h3⟩ := exec_kept h
  rw [hb] at h1 h3
  exact ⟨hacc.trans h1, h3, h2⟩

end Sys2Proof.Machine
end

