-- ==== Sys2Proof/Tests/Slice0.lean ====
section
/-! SUPPORT. The model's own tests: the checks of WellFormed refuse, the decoder on words written out from the spec, one step per vector of 95_test_vectors.md (expected values are the spec's), and for every statement with hypotheses a state and operands that meet them. -/

namespace Sys2Proof.Tests

open Sys2Proof Sys2Proof.Machine Sys2Proof.Stated

/-! ### WellFormed refuses ill-formed terms -/

/-- STA has no Immediate mode (30_encoding.md R92). -/
theorem test_wellFormed_refuses_mode :
    (Instr.sta (.immediate 0x10)).modeOccurs = false ∧
    (Instr.sta (.immediate 0x10)).wellFormed = false := by decide

/-- 0xEA is NOP's own byte, no undefined one (30_encoding.md R85, R87). -/
theorem test_wellFormed_refuses_defined_byte :
    (Instr.undefinedOpcode 0xEA).opcodeIsUndefined = false ∧
    (Instr.undefinedOpcode 0xEA).wellFormed = false := by decide

theorem test_wellFormed_accepts :
    (Instr.sta (.absoluteX 0x1234)).wellFormed = true ∧
    (Instr.undefinedOpcode 0x02).wellFormed = true := by decide

/-! ### Decoding: bytes written out from 30_encoding.md R81 and R85 -/

theorem test_decode_arithmetic :
    decode [0b01101001, 0x10] = .ok (.adc (.immediate 0x10), []) ∧
    decode [0b11101101, 0x34, 0x12] = .ok (.sbc (.absolute 0x1234), []) ∧
    decode [0b00110101, 0xF0] = .ok (.and (.zeroPageX 0xF0), []) ∧
    decode [0b00000001, 0x20] = .ok (.ora (.indirectX 0x20), []) ∧
    decode [0b01011001, 0xFF, 0x20] = .ok (.eor (.absoluteY 0x20FF), []) :=
  ⟨rfl, rfl, rfl, rfl, rfl⟩

theorem test_decode_shift :
    decode [0b00000110, 0x40] = .ok (.asl (.zeroPage 0x40), []) ∧
    decode [0b01001010] = .ok (.lsr .accumulator, []) ∧
    decode [0b00111110, 0xF0, 0x12] = .ok (.rol (.absoluteX 0x12F0), []) ∧
    decode [0b01110110, 0x01] = .ok (.ror (.zeroPageX 0x01), []) :=
  ⟨rfl, rfl, rfl, rfl⟩

theorem test_decode_branch :
    decode [0b10010000, 0x04] = .ok (.bcc (.relative 0x04), []) ∧
    decode [0b10110000, 0xFC] = .ok (.bcs (.relative 0xFC), []) ∧
    decode [0b11110000, 0x05] = .ok (.beq (.relative 0x05), []) ∧
    decode [0b00110000, 0x7F] = .ok (.bmi (.relative 0x7F), []) ∧
    decode [0b11010000, 0xF9] = .ok (.bne (.relative 0xF9), []) ∧
    decode [0b00010000, 0x80] = .ok (.bpl (.relative 0x80), []) ∧
    decode [0b01010000, 0x00] = .ok (.bvc (.relative 0x00), []) ∧
    decode [0b01110000, 0xFE] = .ok (.bvs (.relative 0xFE), []) :=
  ⟨rfl, rfl, rfl, rfl, rfl, rfl, rfl, rfl⟩

theorem test_decode_compare :
    decode [0b11010001, 0x86] = .ok (.cmp (.indirectY 0x86), []) ∧
    decode [0b11100000, 0x10] = .ok (.cpx (.immediate 0x10), []) ∧
    decode [0b11000100, 0x20] = .ok (.cpy (.zeroPage 0x20), []) ∧
    decode [0b00101100, 0x00, 0x30] = .ok (.bit (.absolute 0x3000), []) ∧
    decode [0b11111110, 0xFF, 0x12] = .ok (.inc (.absoluteX 0x12FF), []) ∧
    decode [0b11010110, 0x10] = .ok (.dec (.zeroPageX 0x10), []) ∧
    decode [0b11101000] = .ok (.inx, []) ∧
    decode [0b11001000] = .ok (.iny, []) ∧
    decode [0b11001010] = .ok (.dex, []) ∧
    decode [0b10001000] = .ok (.dey, []) :=
  ⟨rfl, rfl, rfl, rfl, rfl, rfl, rfl, rfl, rfl, rfl⟩

theorem test_decode_jump :
    decode [0b01101100, 0xFF, 0x02] = .ok (.jmp (.indirect 0x02FF), []) ∧
    decode [0b00100000, 0x10, 0xC0] = .ok (.jsr (.absolute 0xC010), []) ∧
    decode [0b01100000] = .ok (.rts, []) :=
  ⟨rfl, rfl, rfl⟩

theorem test_decode_flag :
    decode [0b00011000] = .ok (.clc, []) ∧
    decode [0b11011000] = .ok (.cld, []) ∧
    decode [0b01011000] = .ok (.cli, []) ∧
    decode [0b10111000] = .ok (.clv, []) ∧
    decode [0b00111000] = .ok (.sec, []) ∧
    decode [0b11111000] = .ok (.sed, []) ∧
    decode [0b01111000] = .ok (.sei, []) ∧
    decode [0b11101010] = .ok (.nop, []) ∧
    decode [0b00000010] = .ok (.undefinedOpcode 0x02, []) ∧
    decode [0b11101011] = .ok (.undefinedOpcode 0xEB, []) :=
  ⟨rfl, rfl, rfl, rfl, rfl, rfl, rfl, rfl, rfl, rfl⟩

theorem test_decode_load_store :
    decode [0b10110001, 0x86] = .ok (.lda (.indirectY 0x86), []) ∧
    decode [0b10110110, 0xF0] = .ok (.ldx (.zeroPageY 0xF0), []) ∧
    decode [0b10111100, 0x80, 0x20] = .ok (.ldy (.absoluteX 0x2080), []) ∧
    decode [0b10000001, 0x20] = .ok (.sta (.indirectX 0x20), []) ∧
    decode [0b10010110, 0xFF] = .ok (.stx (.zeroPageY 0xFF), []) ∧
    decode [0b10001100, 0x34, 0x12] = .ok (.sty (.absolute 0x1234), []) ∧
    decode [0b10101010] = .ok (.tax, []) ∧
    decode [0b10101000] = .ok (.tay, []) ∧
    decode [0b10111010] = .ok (.tsx, []) ∧
    decode [0b10001010] = .ok (.txa, []) ∧
    decode [0b10011010] = .ok (.txs, []) ∧
    decode [0b10011000] = .ok (.tya, []) :=
  ⟨rfl, rfl, rfl, rfl, rfl, rfl, rfl, rfl, rfl, rfl, rfl, rfl⟩

theorem test_decode_stack :
    decode [0b01001000] = .ok (.pha, []) ∧
    decode [0b00001000] = .ok (.php, []) ∧
    decode [0b01101000] = .ok (.pla, []) ∧
    decode [0b00101000] = .ok (.plp, []) ∧
    decode [0b00000000] = .ok (.brk, []) ∧
    decode [0b01000000] = .ok (.rti, []) :=
  ⟨rfl, rfl, rfl, rfl, rfl, rfl⟩

/-- A list that ends too early is rejected by name (log entry 14); bytes after the instruction stay. -/
theorem test_decode_rejects_and_leaves_the_rest :
    decode [] = .error .noBytes ∧ decode [0xAD, 0x34] = .error (.truncated 0xAD) ∧
    decode [0x04, 0xEA] = .ok (.undefinedOpcode 0x04, [0xEA]) := ⟨rfl, rfl, rfl⟩

/-- The tuples of 95_test_vectors.md 2.12: mnemonic, mode, base cycles, page-cross flag. -/
theorem test_decode_rows :
    rowOf 0xB5 = ⟨0xB5, .lda, .zeroPageX, 4, false⟩ ∧ rowOf 0xBD = ⟨0xBD, .lda, .absoluteX, 4, true⟩ ∧
    rowOf 0x9D = ⟨0x9D, .sta, .absoluteX, 5, false⟩ ∧ rowOf 0xB1 = ⟨0xB1, .lda, .indirectY, 5, true⟩ ∧
    rowOf 0x6C = ⟨0x6C, .jmp, .indirect, 5, false⟩ ∧ rowOf 0x00 = ⟨0x00, .brk, .implicit, 7, false⟩ ∧
    rowOf 0x02 = ⟨0x02, .nop, .implicit, 0, false⟩ := by decide +kernel

/-- The numbering of opcode_table.json: the first byte is bits 7..0; bits from `nbits` up are 0. -/
theorem test_decodeTableWord :
    decodeTableWord 24 0x12349D = some (.sta (.absoluteX 0x1234)) ∧
    decodeTableWord 8 0x12349D = some (.sta (.absoluteX 0x0000)) ∧
    decodeTableWord 8 0x00 = some .brk := by decide +kernel

theorem test_withFetchWord_from_reset :
    (fetch (State.reset.withFetchWord 24 0x12349D)).value = .sta (.absoluteX 0x1234) ∧
    (fetch (State.reset.withFetchWord 24 0x12349D)).state.pc = 3 := by decide +kernel

/-! ### The state of a vector and what a step of it ends in -/

/-- No flag set. -/
def noFlags : Flags := ⟨false, false, false, false, false, false, false⟩

/-- The convention of 95_test_vectors.md: flat RAM all 0x00 but the instruction's bytes at `pc` and
the listed ones, every register and flag 0, no access made yet. -/
def startAt (pc : Word) (bytes : List Byte) (cells : List (Word × Byte)) : State :=
  let ram := cells.foldl (fun r c => ramWrite r c.1.toNat c.2) []
  { State.reset with pc := pc, bus := { ram := placeBytes ram pc bytes, devices := [], history := [] } }

/-- One step from `s` ends with this `pc`, these A, X, Y, S, these flags, these accesses of execute
(in order, after those of fetch) and this cycle count. -/
def ends (s : State) (pc : Word) (regs : List Byte) (f : Flags) (acc : List Access) (cycles : Nat) :
    Bool :=
  match step s with
  | .next t =>
    decide (t.pc = pc) && decide ([t.a, t.x, t.y, t.sp] = regs) && decide (t.flags = f) &&
      decide (t.bus.history = acc.reverse ++ (fetch s).state.bus.history) &&
      decide (t.cycleOut = some cycles)
  | _ => false

/-- The outcome is a next state. -/
def completes : Out → Bool
  | .next _ => true
  | _ => false

/-- The next state of an outcome that has one. -/
def after (d : State) : Out → State
  | .next t => t
  | _ => d

/-! ### Fetch, reset, faults and the free value -/

/-- 95_test_vectors.md 2.12, last row: an instruction straddling the top of memory. -/
theorem test_fetch_straddles_the_top :
    (fetch (startAt 0xFFFE [0xAD, 0x34, 0x12] [])).value = .lda (.absolute 0x1234) ∧
    (fetch (startAt 0xFFFE [0xAD, 0x34, 0x12] [])).state.pc = 0x0001 ∧
    (fetch (startAt 0xFFFE [0xAD, 0x34, 0x12] [])).state.bus.history.map Access.addr =
      [0x0000, 0xFFFF, 0xFFFE] := by decide +kernel

/-- 95_test_vectors.md 2.13, first row. -/
theorem test_reset_loads_the_vector :
    let s : State :=
      { startAt 0xBEEF [] [(0xFFFC, 0x34), (0xFFFD, 0x12)] with
        a := 0x12, x := 0x34, y := 0x56, sp := 0x78
        flags := ⟨true, true, false, true, false, false, true⟩ }
    resetCore s = { s with
      pc := 0x1234
      bus := { s.bus with history := [⟨.read, 0xFFFD, 0x12⟩, ⟨.read, 0xFFFC, 0x34⟩] } } := by decide +kernel

/-- 95_test_vectors.md 2.14: the handlers raise on a mode they cannot service, and ASL Accumulator
does not. -/
theorem test_faults :
    exec (.lda .implicit) State.reset = .fault (.invalidAddressingMode .lda .implicit) ∧
    exec (.sta (.immediate 0x10)) State.reset = .fault (.invalidAddressingMode .sta (.immediate 0x10)) ∧
    exec (.beq (.absolute 0x1234)) State.reset =
      .fault (.invalidAddressingMode .beq (.absolute 0x1234)) ∧
    exec (.jsr (.indirect 0x1234)) State.reset =
      .fault (.invalidAddressingMode .jsr (.indirect 0x1234)) ∧
    exec (.inc .accumulator) State.reset = .fault (.invalidAddressingMode .inc .accumulator) ∧
    completes (exec (.asl .accumulator) State.reset) = true := ⟨rfl, rfl, rfl, rfl, rfl, rfl⟩

/-- A reset machine whose whole address space from 0x2000 to 0x3FFF is a device (20_memory.md R66). -/
def withDevice : State :=
  { State.reset with bus := { State.reset.bus with devices := [⟨0x2000, 0x3FFF⟩] } }

/-- A load from the device runs, and gives what the bus answers, a free value. -/
theorem test_device_answers_a_free_value :
    (after State.reset (exec (.lda (.absolute 0x2002)) withDevice)).a =
      Config.busAnswer State.reset.bus.history 0x2002 := rfl

/-- A store to the device runs, is recorded, and leaves flat RAM as it is. -/
theorem test_device_store_is_recorded :
    (after State.reset (exec (.sta (.absolute 0x2000)) { withDevice with a := 0x80 })).bus =
      { withDevice.bus with history := ⟨.write, 0x2000, 0x80⟩ :: State.reset.bus.history } := by
  decide +kernel

/-! ### One step per vector -/

/-! ADC, SBC, AND, ORA, EOR (95_test_vectors.md 2.1 to 2.3) -/

theorem test_adc :
    ends ({ startAt 0x0200 [0x69, 0x01] [] with a := 0x7F })
    0x0202 [0x80, 0x00, 0x00, 0x00] ⟨false, false, false, false, false, true, true⟩
    [] 2 = true ∧
    ends ({ startAt 0x0200 [0x71, 0x86] [(0x0086, 0xFF), (0x0087, 0x40), (0x4100, 0x05)] with a := 0x01, y := 0x01 })
    0x0202 [0x06, 0x00, 0x01, 0x00] ⟨false, false, false, false, false, false, false⟩
    [⟨.read, 0x0086, 0xFF⟩, ⟨.read, 0x0087, 0x40⟩, ⟨.read, 0x4100, 0x05⟩] 6 = true := by decide

theorem test_sbc :
    ends ({ startAt 0x0200 [0xE9, 0x01] [] with a := 0x80, flags := { noFlags with c := true } })
    0x0202 [0x7F, 0x00, 0x00, 0x00] ⟨true, false, false, false, false, true, false⟩
    [] 2 = true ∧
    ends ({ startAt 0x0200 [0xED, 0x00, 0x30] [(0x3000, 0x01)] with a := 0x10, flags := { noFlags with c := true, d := true } })
    0x0203 [0x0F, 0x00, 0x00, 0x00] ⟨true, false, false, true, false, false, false⟩
    [⟨.read, 0x3000, 0x01⟩] 4 = true := by decide

theorem test_and :
    ends ({ startAt 0x0200 [0x29, 0x0F] [] with a := 0xF0, flags := { noFlags with c := true, v := true } })
    0x0202 [0x00, 0x00, 0x00, 0x00] ⟨true, true, false, false, false, true, false⟩
    [] 2 = true ∧
    ends ({ startAt 0x0200 [0x35, 0xF0] [(0x0010, 0x3C)] with a := 0x0F, x := 0x20 })
    0x0202 [0x0C, 0x20, 0x00, 0x00] ⟨false, false, false, false, false, false, false⟩
    [⟨.read, 0x0010, 0x3C⟩] 4 = true := by decide

theorem test_ora :
    ends ({ startAt 0x0200 [0x09, 0x80] [] with a := 0x0F })
    0x0202 [0x8F, 0x00, 0x00, 0x00] ⟨false, false, false, false, false, false, true⟩
    [] 2 = true ∧
    ends ({ startAt 0x0200 [0x01, 0x20] [(0x0024, 0x00), (0x0025, 0x30), (0x3000, 0x81)] with a := 0x02, x := 0x04 })
    0x0202 [0x83, 0x04, 0x00, 0x00] ⟨false, false, false, false, false, false, true⟩
    [⟨.read, 0x0024, 0x00⟩, ⟨.read, 0x0025, 0x30⟩, ⟨.read, 0x3000, 0x81⟩] 6 = true := by decide

theorem test_eor :
    ends ({ startAt 0x0200 [0x49, 0xAA] [] with a := 0xAA, flags := { noFlags with c := true } })
    0x0202 [0x00, 0x00, 0x00, 0x00] ⟨true, true, false, false, false, false, false⟩
    [] 2 = true ∧
    ends ({ startAt 0x0200 [0x59, 0xFF, 0x20] [(0x2100, 0xFF)] with a := 0x0F, y := 0x01 })
    0x0203 [0xF0, 0x00, 0x01, 0x00] ⟨false, false, false, false, false, false, true⟩
    [⟨.read, 0x2100, 0xFF⟩] 5 = true := by decide

/-! ASL, LSR, ROL, ROR (2.4) -/

theorem test_asl :
    ends ({ startAt 0x0200 [0x0A] [] with a := 0x40, flags := { noFlags with c := true } })
    0x0201 [0x80, 0x00, 0x00, 0x00] ⟨false, false, false, false, false, false, true⟩
    [] 2 = true ∧
    ends ({ startAt 0x0200 [0x16, 0xFF] [(0x0000, 0x55)] with x := 0x01 })
    0x0202 [0x00, 0x01, 0x00, 0x00] ⟨false, false, false, false, false, false, true⟩
    [⟨.read, 0x0000, 0x55⟩, ⟨.write, 0x0000, 0xAA⟩] 6 = true := by decide

theorem test_lsr :
    ends ({ startAt 0x0200 [0x4A] [] with a := 0x82, flags := { noFlags with c := true, n := true } })
    0x0201 [0x41, 0x00, 0x00, 0x00] ⟨false, false, false, false, false, false, false⟩
    [] 2 = true ∧
    ends (startAt 0x0200 [0x4E, 0x00, 0x03] [(0x0300, 0xFF)])
    0x0203 [0x00, 0x00, 0x00, 0x00] ⟨true, false, false, false, false, false, false⟩
    [⟨.read, 0x0300, 0xFF⟩, ⟨.write, 0x0300, 0x7F⟩] 6 = true := by decide

theorem test_rol :
    ends ({ startAt 0x0200 [0x26, 0x40] [(0x0040, 0x81)] with flags := { noFlags with c := true } })
    0x0202 [0x00, 0x00, 0x00, 0x00] ⟨true, false, false, false, false, false, false⟩
    [⟨.read, 0x0040, 0x81⟩, ⟨.write, 0x0040, 0x03⟩] 5 = true ∧
    ends ({ startAt 0x0200 [0x2A] [] with flags := { noFlags with c := true } })
    0x0201 [0x01, 0x00, 0x00, 0x00] ⟨false, false, false, false, false, false, false⟩
    [] 2 = true := by decide

theorem test_ror :
    ends ({ startAt 0x0200 [0x6A] [] with a := 0x03, flags := { noFlags with c := true } })
    0x0201 [0x81, 0x00, 0x00, 0x00] ⟨true, false, false, false, false, false, true⟩
    [] 2 = true ∧
    ends ({ startAt 0x0200 [0x7E, 0xF0, 0x12] [(0x1310, 0x02)] with x := 0x20 })
    0x0203 [0x00, 0x20, 0x00, 0x00] ⟨false, false, false, false, false, false, false⟩
    [⟨.read, 0x1310, 0x02⟩, ⟨.write, 0x1310, 0x01⟩] 7 = true := by decide

/-! Branches (2.5) -/

theorem test_bcc :
    ends (startAt 0x8000 [0x90, 0x04] [])
    0x8006 [0x00, 0x00, 0x00, 0x00] ⟨false, false, false, false, false, false, false⟩
    [] 2 = true ∧
    ends ({ startAt 0x8000 [0x90, 0x04] [] with flags := { noFlags with c := true } })
    0x8002 [0x00, 0x00, 0x00, 0x00] ⟨true, false, false, false, false, false, false⟩
    [] 2 = true := by decide

theorem test_bcs :
    ends ({ startAt 0x8000 [0xB0, 0xFC] [] with flags := { noFlags with c := true } })
    0x7FFE [0x00, 0x00, 0x00, 0x00] ⟨true, false, false, false, false, false, false⟩
    [] 2 = true ∧
    ends (startAt 0x8000 [0xB0, 0xFC] [])
    0x8002 [0x00, 0x00, 0x00, 0x00] ⟨false, false, false, false, false, false, false⟩
    [] 2 = true := by decide

theorem test_beq :
    ends (startAt 0x0200 [0xF0, 0x05] [])
    0x0202 [0x00, 0x00, 0x00, 0x00] ⟨false, false, false, false, false, false, false⟩
    [] 2 = true ∧
    ends ({ startAt 0xFFFF [0xF0, 0x10] [] with flags := { noFlags with z := true } })
    0x0011 [0x00, 0x00, 0x00, 0x00] ⟨false, true, false, false, false, false, false⟩
    [] 2 = true := by decide

theorem test_bne :
    ends (startAt 0x800A [0xD0, 0xF9] [])
    0x8005 [0x00, 0x00, 0x00, 0x00] ⟨false, false, false, false, false, false, false⟩
    [] 2 = true ∧
    ends ({ startAt 0x800A [0xD0, 0xF9] [] with flags := { noFlags with z := true } })
    0x800C [0x00, 0x00, 0x00, 0x00] ⟨false, true, false, false, false, false, false⟩
    [] 2 = true := by decide

theorem test_bmi :
    ends ({ startAt 0xFFF0 [0x30, 0x7F] [] with flags := { noFlags with n := true } })
    0x0071 [0x00, 0x00, 0x00, 0x00] ⟨false, false, false, false, false, false, true⟩
    [] 2 = true ∧
    ends (startAt 0xFFF0 [0x30, 0x7F] [])
    0xFFF2 [0x00, 0x00, 0x00, 0x00] ⟨false, false, false, false, false, false, false⟩
    [] 2 = true := by decide

theorem test_bpl :
    ends (startAt 0x0010 [0x10, 0x80] [])
    0xFF92 [0x00, 0x00, 0x00, 0x00] ⟨false, false, false, false, false, false, false⟩
    [] 2 = true ∧
    ends ({ startAt 0x0010 [0x10, 0x80] [] with flags := { noFlags with n := true } })
    0x0012 [0x00, 0x00, 0x00, 0x00] ⟨false, false, false, false, false, false, true⟩
    [] 2 = true := by decide

theorem test_bvc :
    ends (startAt 0x3000 [0x50, 0x00] [])
    0x3002 [0x00, 0x00, 0x00, 0x00] ⟨false, false, false, false, false, false, false⟩
    [] 2 = true ∧
    ends ({ startAt 0x3000 [0x50, 0x00] [] with flags := { noFlags with v := true } })
    0x3002 [0x00, 0x00, 0x00, 0x00] ⟨false, false, false, false, false, true, false⟩
    [] 2 = true := by decide

theorem test_bvs :
    ends ({ startAt 0x3000 [0x70, 0xFE] [] with flags := { noFlags with v := true } })
    0x3000 [0x00, 0x00, 0x00, 0x00] ⟨false, false, false, false, false, true, false⟩
    [] 2 = true ∧
    ends (startAt 0x3000 [0x70, 0xFE] [])
    0x3002 [0x00, 0x00, 0x00, 0x00] ⟨false, false, false, false, false, false, false⟩
    [] 2 = true := by decide

/-! CMP, CPX, CPY, BIT (2.6) -/

theorem test_cmp :
    ends ({ startAt 0x0200 [0xC9, 0x01] [] with flags := { noFlags with v := true } })
    0x0202 [0x00, 0x00, 0x00, 0x00] ⟨false, false, false, false, false, true, true⟩
    [] 2 = true ∧
    ends ({ startAt 0x0200 [0xDD, 0xFF, 0x10] [(0x1100, 0x01)] with a := 0x02, x := 0x01 })
    0x0203 [0x02, 0x01, 0x00, 0x00] ⟨true, false, false, false, false, false, false⟩
    [⟨.read, 0x1100, 0x01⟩] 5 = true := by decide

theorem test_cpx :
    ends ({ startAt 0x0200 [0xE0, 0x10] [] with x := 0x0F })
    0x0202 [0x00, 0x0F, 0x00, 0x00] ⟨false, false, false, false, false, false, true⟩
    [] 2 = true ∧
    ends ({ startAt 0x0200 [0xEC, 0x00, 0x30] [(0x3000, 0x05)] with x := 0x05 })
    0x0203 [0x00, 0x05, 0x00, 0x00] ⟨true, true, false, false, false, false, false⟩
    [⟨.read, 0x3000, 0x05⟩] 4 = true := by decide

theorem test_cpy :
    ends ({ startAt 0x0200 [0xC4, 0x20] [(0x0020, 0x10)] with y := 0x30 })
    0x0202 [0x00, 0x00, 0x30, 0x00] ⟨true, false, false, false, false, false, false⟩
    [⟨.read, 0x0020, 0x10⟩] 3 = true ∧
    ends (startAt 0x0200 [0xC0, 0xFF] [])
    0x0202 [0x00, 0x00, 0x00, 0x00] ⟨false, false, false, false, false, false, false⟩
    [] 2 = true := by decide

theorem test_bit :
    ends ({ startAt 0x0200 [0x24, 0x10] [(0x0010, 0xC0)] with a := 0x01, flags := { noFlags with c := true } })
    0x0202 [0x01, 0x00, 0x00, 0x00] ⟨true, true, false, false, false, true, true⟩
    [⟨.read, 0x0010, 0xC0⟩] 3 = true ∧
    ends ({ startAt 0x0200 [0x2C, 0x00, 0x30] [(0x3000, 0x3F)] with a := 0xFF, flags := { noFlags with v := true, n := true } })
    0x0203 [0xFF, 0x00, 0x00, 0x00] ⟨false, false, false, false, false, false, false⟩
    [⟨.read, 0x3000, 0x3F⟩] 4 = true := by decide

/-! INC, DEC, INX, INY, DEX, DEY (2.7) -/

theorem test_inc :
    ends ({ startAt 0x0200 [0xE6, 0x41] [(0x0041, 0xFF)] with flags := { noFlags with c := true } })
    0x0202 [0x00, 0x00, 0x00, 0x00] ⟨true, true, false, false, false, false, false⟩
    [⟨.read, 0x0041, 0xFF⟩, ⟨.write, 0x0041, 0x00⟩] 5 = true ∧
    ends ({ startAt 0x0200 [0xFE, 0xFF, 0x12] [(0x1300, 0x00)] with x := 0x01 })
    0x0203 [0x00, 0x01, 0x00, 0x00] ⟨false, false, false, false, false, false, false⟩
    [⟨.read, 0x1300, 0x00⟩, ⟨.write, 0x1300, 0x01⟩] 7 = true := by decide

theorem test_dec :
    ends (startAt 0x0200 [0xC6, 0x10] [(0x0010, 0x00)])
    0x0202 [0x00, 0x00, 0x00, 0x00] ⟨false, false, false, false, false, false, true⟩
    [⟨.read, 0x0010, 0x00⟩, ⟨.write, 0x0010, 0xFF⟩] 5 = true ∧
    ends ({ startAt 0x0200 [0xD6, 0x10] [(0x0015, 0x80)] with x := 0x05 })
    0x0202 [0x00, 0x05, 0x00, 0x00] ⟨false, false, false, false, false, false, false⟩
    [⟨.read, 0x0015, 0x80⟩, ⟨.write, 0x0015, 0x7F⟩] 6 = true := by decide

theorem test_inx :
    ends ({ startAt 0x0200 [0xE8] [] with x := 0xFF })
    0x0201 [0x00, 0x00, 0x00, 0x00] ⟨false, true, false, false, false, false, false⟩
    [] 2 = true ∧
    ends ({ startAt 0x0200 [0xE8] [] with x := 0x7F, flags := { noFlags with c := true, v := true } })
    0x0201 [0x00, 0x80, 0x00, 0x00] ⟨true, false, false, false, false, true, true⟩
    [] 2 = true := by decide

theorem test_iny :
    ends ({ startAt 0x0200 [0xC8] [] with y := 0x7F })
    0x0201 [0x00, 0x00, 0x80, 0x00] ⟨false, false, false, false, false, false, true⟩
    [] 2 = true ∧
    ends ({ startAt 0x0200 [0xC8] [] with y := 0xFF })
    0x0201 [0x00, 0x00, 0x00, 0x00] ⟨false, true, false, false, false, false, false⟩
    [] 2 = true := by decide

theorem test_dex :
    ends (startAt 0x0200 [0xCA] [])
    0x0201 [0x00, 0xFF, 0x00, 0x00] ⟨false, false, false, false, false, false, true⟩
    [] 2 = true ∧
    ends ({ startAt 0x0200 [0xCA] [] with x := 0x01 })
    0x0201 [0x00, 0x00, 0x00, 0x00] ⟨false, true, false, false, false, false, false⟩
    [] 2 = true := by decide

theorem test_dey :
    ends ({ startAt 0x0200 [0x88] [] with y := 0x01 })
    0x0201 [0x00, 0x00, 0x00, 0x00] ⟨false, true, false, false, false, false, false⟩
    [] 2 = true ∧
    ends (startAt 0x0200 [0x88] [])
    0x0201 [0x00, 0x00, 0xFF, 0x00] ⟨false, false, false, false, false, false, true⟩
    [] 2 = true := by decide

/-! JMP, JSR, RTS (2.8) -/

theorem test_jmp :
    ends (startAt 0x800E [0x4C, 0x0E, 0x80] [])
    0x800E [0x00, 0x00, 0x00, 0x00] ⟨false, false, false, false, false, false, false⟩
    [] 3 = true ∧
    ends (startAt 0x0400 [0x6C, 0xFF, 0x02] [(0x02FF, 0x34), (0x0300, 0x12), (0x0200, 0x56)])
    0x1234 [0x00, 0x00, 0x00, 0x00] ⟨false, false, false, false, false, false, false⟩
    [⟨.read, 0x02FF, 0x34⟩, ⟨.read, 0x0300, 0x12⟩] 5 = true := by decide

theorem test_jsr :
    ends (startAt 0x1000 [0x20, 0x00, 0x90] [])
    0x9000 [0x00, 0x00, 0x00, 0xFE] ⟨false, false, false, false, false, false, false⟩
    [⟨.write, 0x0100, 0x10⟩, ⟨.write, 0x01FF, 0x02⟩] 6 = true ∧
    ends ({ startAt 0xFFFD [0x20, 0x00, 0x90] [] with sp := 0x80 })
    0x9000 [0x00, 0x00, 0x00, 0x7E] ⟨false, false, false, false, false, false, false⟩
    [⟨.write, 0x0180, 0xFF⟩, ⟨.write, 0x017F, 0xFF⟩] 6 = true := by decide

theorem test_rts :
    ends ({ startAt 0xC011 [0x60] [(0x01FE, 0x07), (0x01FF, 0xC0)] with sp := 0xFD })
    0xC008 [0x00, 0x00, 0x00, 0xFF] ⟨false, false, false, false, false, false, false⟩
    [⟨.read, 0x01FE, 0x07⟩, ⟨.read, 0x01FF, 0xC0⟩] 6 = true ∧
    ends ({ startAt 0x3000 [0x60] [(0x0100, 0xFF), (0x0101, 0xFF)] with sp := 0xFF })
    0x0000 [0x00, 0x00, 0x00, 0x01] ⟨false, false, false, false, false, false, false⟩
    [⟨.read, 0x0100, 0xFF⟩, ⟨.read, 0x0101, 0xFF⟩] 6 = true := by decide

/-! Flags, NOP, the fallback (2.9) -/

theorem test_clc :
    ends ({ startAt 0x0200 [0x18] [] with flags := { noFlags with c := true, z := true, n := true } })
    0x0201 [0x00, 0x00, 0x00, 0x00] ⟨false, true, false, false, false, false, true⟩
    [] 2 = true := by decide

theorem test_cld :
    ends ({ startAt 0x0200 [0xD8] [] with flags := { noFlags with d := true } })
    0x0201 [0x00, 0x00, 0x00, 0x00] ⟨false, false, false, false, false, false, false⟩
    [] 2 = true := by decide

theorem test_cli :
    ends ({ startAt 0x0200 [0x58] [] with flags := { noFlags with i := true } })
    0x0201 [0x00, 0x00, 0x00, 0x00] ⟨false, false, false, false, false, false, false⟩
    [] 2 = true := by decide

theorem test_clv :
    ends ({ startAt 0x0200 [0xB8] [] with flags := { noFlags with c := true, v := true } })
    0x0201 [0x00, 0x00, 0x00, 0x00] ⟨true, false, false, false, false, false, false⟩
    [] 2 = true := by decide

theorem test_sec :
    ends (startAt 0x0200 [0x38] [])
    0x0201 [0x00, 0x00, 0x00, 0x00] ⟨true, false, false, false, false, false, false⟩
    [] 2 = true := by decide

theorem test_sed :
    ends (startAt 0x0200 [0xF8] [])
    0x0201 [0x00, 0x00, 0x00, 0x00] ⟨false, false, false, true, false, false, false⟩
    [] 2 = true := by decide

theorem test_sei :
    ends (startAt 0x0200 [0x78] [])
    0x0201 [0x00, 0x00, 0x00, 0x00] ⟨false, false, true, false, false, false, false⟩
    [] 2 = true := by decide

theorem test_nop :
    ends ({ startAt 0x1000 [0xEA] [] with a := 0x12, flags := { noFlags with c := true } })
    0x1001 [0x12, 0x00, 0x00, 0x00] ⟨true, false, false, false, false, false, false⟩
    [] 2 = true := by decide

theorem test_undef :
    ends ({ startAt 0x1000 [0x02] [] with a := 0x12, flags := { noFlags with c := true } })
    0x1001 [0x12, 0x00, 0x00, 0x00] ⟨true, false, false, false, false, false, false⟩
    [] 0 = true ∧
    ends (startAt 0x1000 [0x04, 0xEA] [])
    0x1001 [0x00, 0x00, 0x00, 0x00] ⟨false, false, false, false, false, false, false⟩
    [] 0 = true := by decide

/-! Loads, stores, transfers (2.10) -/

theorem test_lda :
    ends ({ startAt 0x0200 [0xA1, 0xF0] [(0x00FF, 0x00), (0x0100, 0x30), (0x0000, 0x40), (0x3000, 0x5C), (0x4000, 0x5D)] with x := 0x0F })
    0x0202 [0x5C, 0x0F, 0x00, 0x00] ⟨false, false, false, false, false, false, false⟩
    [⟨.read, 0x00FF, 0x00⟩, ⟨.read, 0x0100, 0x30⟩, ⟨.read, 0x3000, 0x5C⟩] 6 = true ∧
    ends ({ startAt 0x0200 [0xB1, 0x86] [(0x0086, 0xFF), (0x0087, 0x40), (0x410F, 0x9D)] with y := 0x10 })
    0x0202 [0x9D, 0x00, 0x10, 0x00] ⟨false, false, false, false, false, false, true⟩
    [⟨.read, 0x0086, 0xFF⟩, ⟨.read, 0x0087, 0x40⟩, ⟨.read, 0x410F, 0x9D⟩] 6 = true := by decide

theorem test_ldx :
    ends ({ startAt 0x0200 [0xB6, 0xF0] [(0x0010, 0x80)] with y := 0x20 })
    0x0202 [0x00, 0x80, 0x20, 0x00] ⟨false, false, false, false, false, false, true⟩
    [⟨.read, 0x0010, 0x80⟩] 4 = true ∧
    ends ({ startAt 0x0200 [0xBE, 0xFF, 0x10] [(0x1100, 0x00)] with y := 0x01 })
    0x0203 [0x00, 0x00, 0x01, 0x00] ⟨false, true, false, false, false, false, false⟩
    [⟨.read, 0x1100, 0x00⟩] 5 = true := by decide

theorem test_ldy :
    ends ({ startAt 0x0200 [0xB4, 0xF0] [(0x0010, 0x00)] with x := 0x20 })
    0x0202 [0x00, 0x20, 0x00, 0x00] ⟨false, true, false, false, false, false, false⟩
    [⟨.read, 0x0010, 0x00⟩] 4 = true ∧
    ends ({ startAt 0x0200 [0xBC, 0x80, 0x20] [(0x2100, 0x33)] with x := 0x80 })
    0x0203 [0x00, 0x80, 0x33, 0x00] ⟨false, false, false, false, false, false, false⟩
    [⟨.read, 0x2100, 0x33⟩] 5 = true := by decide

theorem test_sta :
    ends ({ startAt 0x0200 [0x91, 0x86] [(0x0086, 0xFF), (0x0087, 0x40)] with a := 0x78, y := 0x01 })
    0x0202 [0x78, 0x00, 0x01, 0x00] ⟨false, false, false, false, false, false, false⟩
    [⟨.read, 0x0086, 0xFF⟩, ⟨.read, 0x0087, 0x40⟩, ⟨.write, 0x4100, 0x78⟩] 6 = true ∧
    ends ({ startAt 0x0200 [0x99, 0xFF, 0xFF] [] with a := 0x79, y := 0x01 })
    0x0203 [0x79, 0x00, 0x01, 0x00] ⟨false, false, false, false, false, false, false⟩
    [⟨.write, 0x0000, 0x79⟩] 5 = true := by decide

theorem test_stx :
    ends ({ startAt 0x0200 [0x86, 0x10] [] with x := 0x05 })
    0x0202 [0x00, 0x05, 0x00, 0x00] ⟨false, false, false, false, false, false, false⟩
    [⟨.write, 0x0010, 0x05⟩] 3 = true ∧
    ends ({ startAt 0x0200 [0x96, 0xFF] [] with x := 0x06, y := 0x02 })
    0x0202 [0x00, 0x06, 0x02, 0x00] ⟨false, false, false, false, false, false, false⟩
    [⟨.write, 0x0001, 0x06⟩] 4 = true := by decide

theorem test_sty :
    ends ({ startAt 0x0200 [0x8C, 0x34, 0x12] [] with y := 0xFF })
    0x0203 [0x00, 0x00, 0xFF, 0x00] ⟨false, false, false, false, false, false, false⟩
    [⟨.write, 0x1234, 0xFF⟩] 4 = true ∧
    ends ({ startAt 0x0200 [0x94, 0x10] [] with x := 0xF0, y := 0x01 })
    0x0202 [0x00, 0xF0, 0x01, 0x00] ⟨false, false, false, false, false, false, false⟩
    [⟨.write, 0x0000, 0x01⟩] 4 = true := by decide

theorem test_tax :
    ends ({ startAt 0x0200 [0xAA] [] with a := 0x80 })
    0x0201 [0x80, 0x80, 0x00, 0x00] ⟨false, false, false, false, false, false, true⟩
    [] 2 = true := by decide

theorem test_tay :
    ends ({ startAt 0x0200 [0xA8] [] with y := 0x01 })
    0x0201 [0x00, 0x00, 0x00, 0x00] ⟨false, true, false, false, false, false, false⟩
    [] 2 = true := by decide

theorem test_tsx :
    ends ({ startAt 0x0200 [0xBA] [] with sp := 0xFD })
    0x0201 [0x00, 0xFD, 0x00, 0xFD] ⟨false, false, false, false, false, false, true⟩
    [] 2 = true := by decide

theorem test_txa :
    ends ({ startAt 0x0200 [0x8A] [] with a := 0x80, x := 0x7F, flags := { noFlags with n := true } })
    0x0201 [0x7F, 0x7F, 0x00, 0x00] ⟨false, false, false, false, false, false, false⟩
    [] 2 = true := by decide

theorem test_txs :
    ends ({ startAt 0x0200 [0x9A] [] with x := 0xFF, flags := { noFlags with z := true } })
    0x0201 [0x00, 0xFF, 0x00, 0xFF] ⟨false, true, false, false, false, false, false⟩
    [] 2 = true ∧
    ends ({ startAt 0x0200 [0x9A] [] with flags := { noFlags with n := true } })
    0x0201 [0x00, 0x00, 0x00, 0x00] ⟨false, false, false, false, false, false, true⟩
    [] 2 = true := by decide

theorem test_tya :
    ends ({ startAt 0x0200 [0x98] [] with a := 0x01 })
    0x0201 [0x00, 0x00, 0x00, 0x00] ⟨false, true, false, false, false, false, false⟩
    [] 2 = true := by decide

/-! Stack and system (2.11) -/

theorem test_pha :
    ends ({ startAt 0x0200 [0x48] [] with a := 0x42, sp := 0xFF })
    0x0201 [0x42, 0x00, 0x00, 0xFE] ⟨false, false, false, false, false, false, false⟩
    [⟨.write, 0x01FF, 0x42⟩] 3 = true ∧
    ends ({ startAt 0x0200 [0x48] [] with a := 0x43 })
    0x0201 [0x43, 0x00, 0x00, 0xFF] ⟨false, false, false, false, false, false, false⟩
    [⟨.write, 0x0100, 0x43⟩] 3 = true := by decide

theorem test_php :
    ends ({ startAt 0x0200 [0x08] [] with sp := 0xFD, flags := { noFlags with c := true, i := true, n := true } })
    0x0201 [0x00, 0x00, 0x00, 0xFC] ⟨true, false, true, false, false, false, true⟩
    [⟨.write, 0x01FD, 0xB5⟩] 3 = true ∧
    ends ({ startAt 0x0200 [0x08] [] with sp := 0xFF })
    0x0201 [0x00, 0x00, 0x00, 0xFE] ⟨false, false, false, false, false, false, false⟩
    [⟨.write, 0x01FF, 0x30⟩] 3 = true := by decide

theorem test_pla :
    ends ({ startAt 0x0200 [0x68] [(0x01FF, 0x00)] with a := 0x55, sp := 0xFE })
    0x0201 [0x00, 0x00, 0x00, 0xFF] ⟨false, true, false, false, false, false, false⟩
    [⟨.read, 0x01FF, 0x00⟩] 4 = true ∧
    ends ({ startAt 0x0200 [0x68] [(0x0100, 0x80)] with sp := 0xFF })
    0x0201 [0x80, 0x00, 0x00, 0x00] ⟨false, false, false, false, false, false, true⟩
    [⟨.read, 0x0100, 0x80⟩] 4 = true := by decide

theorem test_plp :
    ends ({ startAt 0x0200 [0x28] [(0x01FD, 0xB5)] with sp := 0xFC })
    0x0201 [0x00, 0x00, 0x00, 0xFD] ⟨true, false, true, false, false, false, true⟩
    [⟨.read, 0x01FD, 0xB5⟩] 4 = true ∧
    ends ({ startAt 0x0200 [0x28] [(0x01FD, 0xFF)] with sp := 0xFC })
    0x0201 [0x00, 0x00, 0x00, 0xFD] ⟨true, true, true, true, false, true, true⟩
    [⟨.read, 0x01FD, 0xFF⟩] 4 = true := by decide

theorem test_brk :
    ends ({ startAt 0x0300 [0x00] [(0xFFFE, 0x00), (0xFFFF, 0x90)] with sp := 0xFF, flags := { noFlags with c := true, z := true } })
    0x9000 [0x00, 0x00, 0x00, 0xFC] ⟨true, true, true, false, false, false, false⟩
    [⟨.write, 0x01FF, 0x03⟩, ⟨.write, 0x01FE, 0x02⟩, ⟨.write, 0x01FD, 0x33⟩, ⟨.read, 0xFFFE, 0x00⟩, ⟨.read, 0xFFFF, 0x90⟩] 7 = true ∧
    ends ({ startAt 0x12FF [0x00] [(0xFFFE, 0x34), (0xFFFF, 0x12)] with sp := 0x01, flags := { noFlags with i := true, d := true, n := true } })
    0x1234 [0x00, 0x00, 0x00, 0xFE] ⟨false, false, true, true, false, false, true⟩
    [⟨.write, 0x0101, 0x13⟩, ⟨.write, 0x0100, 0x01⟩, ⟨.write, 0x01FF, 0xBC⟩, ⟨.read, 0xFFFE, 0x34⟩, ⟨.read, 0xFFFF, 0x12⟩] 7 = true := by decide

theorem test_rti :
    ends ({ startAt 0x9000 [0x40] [(0x01FD, 0x33), (0x01FE, 0x02), (0x01FF, 0x03)] with sp := 0xFC, flags := { noFlags with i := true } })
    0x0302 [0x00, 0x00, 0x00, 0xFF] ⟨true, true, false, false, false, false, false⟩
    [⟨.read, 0x01FD, 0x33⟩, ⟨.read, 0x01FE, 0x02⟩, ⟨.read, 0x01FF, 0x03⟩] 6 = true ∧
    ends ({ startAt 0x9000 [0x40] [(0x01FD, 0xFF), (0x01FE, 0xCD), (0x01FF, 0xAB)] with sp := 0xFC })
    0xABCD [0x00, 0x00, 0x00, 0xFF] ⟨true, true, true, true, false, true, true⟩
    [⟨.read, 0x01FD, 0xFF⟩, ⟨.read, 0x01FE, 0xCD⟩, ⟨.read, 0x01FF, 0xAB⟩] 6 = true := by decide

/-! ### For every statement with hypotheses, a case that meets them -/

/-- Flat RAM with a byte listed, S at 0x00 (its pushes wrap), `pc` at the top of memory. -/
def edge : State := { startAt 0xFFFE [0xAD, 0x34, 0x12] [(0x00FF, 0x01)] with sp := 0x00 }

theorem witness_SetWordThenGetWord :
    Memory.wf edge.bus.ram = true ∧ edge.bus.isDevice 0xFFFF = false ∧
    edge.bus.isDevice (0xFFFF + 1) = false := by decide +kernel

theorem witness_FlatRamReadAfterWrite :
    Memory.wf edge.bus.ram = true ∧ edge.bus.isDevice 0x00FF = false ∧
    edge.bus.isDevice 0x0100 = false := by decide +kernel

theorem witness_PullGivesBackThePushedByte :
    Memory.wf edge.bus.ram = true ∧ edge.bus.isDevice (stackByte edge.sp) = false := by decide +kernel

theorem witness_DecodeTableIsTotalAndUnambiguous :
    isUndefinedOpcode 0x02 = true ∧ isUndefinedOpcode 0xFF = true ∧ isUndefinedOpcode 0xA2 = false := by
  decide

theorem witness_DecodeUndoesEncode :
    (Instr.lda (.absoluteX 0xFFFF)).wellFormed = true ∧ (Instr.brk).wellFormed = true ∧
    (Instr.bne (.relative 0x80)).wellFormed = true ∧ (Instr.undefinedOpcode 0xFF).wellFormed = true := by
  decide

theorem witness_EncodeUndoesDecode :
    decode [0xBD, 0xFF, 0xFF, 0x00] = .ok (.lda (.absoluteX 0xFFFF), [0x00]) ∧
    decode [0x00] = .ok (.brk, []) := ⟨rfl, rfl⟩

/-- Instructions of three, two and one bytes at `pc`. -/
theorem witness_StepExecutesTheDecodedInstruction :
    decode [edge.peek 0xFFFE, edge.peek 0xFFFF, edge.peek 0x0000] = .ok (.lda (.absolute 0x1234), []) ∧
    decode [(startAt 0xFFFF [0xF0, 0x10] []).peek 0xFFFF, (startAt 0xFFFF [0xF0, 0x10] []).peek 0x0000,
      (startAt 0xFFFF [0xF0, 0x10] []).peek 0x0001] = .ok (.beq (.relative 0x10), [0x00]) ∧
    decode [State.reset.peek 0x0000, State.reset.peek 0x0001, State.reset.peek 0x0002] =
      .ok (.brk, [0x00, 0x00]) := ⟨rfl, rfl, rfl⟩

theorem witness_StepAppendsToTheAccessHistory : completes (step edge) = true := by decide +kernel

theorem witness_ModesWithoutACell :
    (Mode.immediate 0x00).isCell = false ∧ Mode.immediate 0x00 ≠ .accumulator ∧
    (Mode.indirect 0xFFFF).isSource = false ∧ Mode.accumulator.isCell = false := by decide

theorem witness_ReadAndWriteTargetTheSameAddress :
    (Mode.zeroPageX 0xFF).isCell = true ∧ (Mode.absoluteY 0xFFFF).isCell = true ∧
    (Mode.indirectX 0xFF).isCell = true ∧ (Mode.indirectY 0x00).isCell = true := by decide

theorem witness_ResolverWritesOnlyItsTarget :
    (∃ r, effAddr .sta (.indirectX 0xFF) edge = .ok r) ∧
    (∃ r, readOperand .lda (.immediate 0x00) edge = .ok r) ∧
    (∃ t, writeOperand .asl .accumulator 0xFF edge = .ok t) ∧
    (∃ t, writeOperand .sta (.absoluteX 0xFFFF) 0xFF edge = .ok t) :=
  ⟨⟨_, rfl⟩, ⟨_, rfl⟩, ⟨_, rfl⟩, ⟨_, rfl⟩⟩

/-- The hypothesis of AdcAddsOperandAndCarry, SbcSubtractsOperandAndBorrow,
LogicCombinesWithAccumulator, CompareSetsCarryZeroSign, BitTestsMemoryAgainstA, LoadsMoveTheOperand. -/
theorem witness_reading_statements :
    (Mode.immediate 0xFF).isSource = true ∧ Mode.accumulator.isSource = true ∧
    (Mode.zeroPage 0x00).isSource = true ∧ (Mode.absoluteX 0xFFFF).isSource = true ∧
    (Mode.indirectX 0xFF).isSource = true := by decide

/-- The hypothesis of ShiftsOnMemory, RotatesOnMemory, IncDecOnMemory, StoresWriteTheRegister, and the
hypotheses under which the stored byte is read back: the address is canonical flat RAM. -/
theorem witness_storing_statements :
    (Mode.zeroPage 0xFF).isCell = true ∧ (Mode.absoluteX 0xFFFF).isCell = true ∧
    Memory.wf edge.bus.ram = true ∧ edge.bus.isDevice 0xFFFF = false := by decide +kernel

/-- The hypotheses of PushesStoreOneByte's stored byte. -/
theorem witness_PushesStoreOneByte :
    Memory.wf edge.bus.ram = true ∧ edge.bus.isDevice (stackByte edge.sp) = false := by decide +kernel

theorem witness_BeqAddsSignedOffset :
    { edge with flags := { noFlags with z := true } }.flags.z = true ∧ edge.flags.z = false ∧
    (Mode.absolute 0x1234).kind ≠ .relative := by decide +kernel

theorem witness_JmpAbsoluteSetsPc :
    (Mode.immediate 0x00).kind ≠ .absolute ∧ (Mode.immediate 0x00).kind ≠ .indirect := by decide

theorem witness_JsrPushesItsLastAddress : (Mode.indirect 0x1234).kind ≠ .absolute := by decide

/-- A JSR at S = 0x00, whose two pushes wrap, and the state it leaves. -/
theorem witness_RtsReturnsPastItsJsr :
    let s := edge
    let t := after s (exec (.jsr (.absolute 0x9000)) s)
    let u := { t with pc := 0x9001, a := 0xFF }
    Memory.wf s.bus.ram = true ∧ s.bus.isDevice (stackByte s.sp) = false ∧
    s.bus.isDevice (stackByte (s.sp - 1)) = false ∧
    exec (.jsr (.absolute 0x9000)) s = .next t ∧ u.sp = t.sp ∧ u.bus.ram = t.bus.ram ∧
    u.bus.devices = t.bus.devices := ⟨rfl, rfl, rfl, rfl, rfl, rfl, rfl⟩

theorem witness_NopAndUndefinedBytesDoNothing :
    isUndefinedOpcode ((startAt 0x1000 [0x02] []).peek 0x1000) = true := by decide +kernel

/-- A BRK at S = 0x01, whose three pushes wrap, and the state it leaves, I cleared by its handler. -/
theorem witness_RtiUndoesItsBrk :
    let s := { edge with sp := 0x01, flags := { noFlags with b := true, n := true } }
    let t := after s (exec .brk s)
    let u := { t with pc := 0x9001, flags := { noFlags with b := true } }
    Memory.wf s.bus.ram = true ∧ s.bus.isDevice (stackByte s.sp) = false ∧
    s.bus.isDevice (stackByte (s.sp - 1)) = false ∧ s.bus.isDevice (stackByte (s.sp - 2)) = false ∧
    exec .brk s = .next t ∧ u.sp = t.sp ∧ u.flags.b = t.flags.b ∧ u.bus.ram = t.bus.ram ∧
    u.bus.devices = t.bus.devices := ⟨rfl, rfl, rfl, rfl, rfl, rfl, rfl, rfl, rfl⟩

theorem witness_ExecFaultsExactlyOnUnservicedModes :
    serviced (.lda (.immediate 0x00)) = true ∧ serviced (.lda .implicit) = false ∧
    (Instr.lda (.immediate 0x00)).wellFormed = true := by decide

theorem witness_StepKeepsMemoryCanonical :
    Memory.wf edge.bus.ram = true ∧ completes (step edge) = true := by decide +kernel

theorem witness_StepKeepsBusCoherent :
    BusCoherent (fun _ => unlistedByte) Bus.blank ∧
    completes (step { State.reset with bus := Bus.blank }) = true :=
  ⟨⟨rfl, fun _ _ => rfl, trivial⟩, by decide +kernel⟩

theorem witness_BreakFlagNeverChanges :
    completes (step edge) = true ∧
    Safety.Reachable Init.zero Bus.blank (resetCore (State.powerOn Init.zero Bus.blank)) :=
  ⟨by decide +kernel, .reset .powerOn⟩

theorem witness_FlagWritersAndReaders :
    Mnemonic.adc ∉ Stated.Flag.writers .d ∧ Mnemonic.adc ∉ Stated.Flag.readers .d ∧
    completes (exec (.adc (.immediate 0x01)) edge) = true := by decide +kernel

theorem witness_RegisterWriters :
    completes (exec (.sta (.absoluteX 0xFFFF)) edge) = true ∧
    (Instr.stx (.zeroPageY 0x00)).wellFormed = true ∧ completes (exec .nop edge) = true := by
  decide +kernel

theorem witness_OnlyStoringInstructionsWrite :
    Mnemonic.lda ∉ ([.sta, .stx, .sty, .inc, .dec, .asl, .lsr, .rol, .ror, .jsr, .pha, .php, .brk] :
      List Mnemonic) ∧ completes (exec (.lda (.indirectY 0xFF)) edge) = true := by decide +kernel

theorem witness_StepReturnsTheRowsCycles :
    completes (step edge) = true ∧ completes (step (startAt 0x1000 [0x02] [])) = true := by
  decide +kernel

end Sys2Proof.Tests
end

section
/-! PROOFS. 10_state.md: the flag update SetZN. -/

namespace Sys2Proof.Proofs

open Sys2Proof Sys2Proof.Machine Sys2Proof.Stated

/-- Bit 7 of a byte is its sign bit: it is set exactly from 128 on. -/
theorem getLsbD_seven_eq_decide_le_toNat (v : Byte) : v.getLsbD 7 = decide (128 ≤ v.toNat) := by
  have sign : v.msb = v.getLsbD 7 := BitVec.msb_eq_getLsbD_last v
  rw [← sign]
  exact BitVec.msb_eq_decide v

/-- The flags SetZN leaves are the stated `zn` of the old flags. -/
theorem setZN_flags_eq_zn (v : Byte) (s : State) : (setZN v s).flags = zn s.flags v := by
  have zero : (v == 0) = decide (v = 0) := beq_eq_decide v 0
  rw [setZN_flags, zero, getLsbD_seven_eq_decide_le_toNat, zn]

/-- Settles O1: SetZN is an update of `flags` alone, and the flags it leaves are `zn`'s. -/
theorem setZNWritesZeroAndSign : Obligations.SetZNWritesZeroAndSign := by
  intro v s
  have onlyFlags : setZN v s = { s with flags := (setZN v s).flags } := rfl
  rw [onlyFlags, setZN_flags_eq_zn]

end Sys2Proof.Proofs
end

section
/-! PROOFS. 20_memory.md R67: the generic read, the generic write and the read-modify-writes share one
effective address. -/

namespace Sys2Proof.Proofs

open Sys2Proof Sys2Proof.Machine Sys2Proof.Stated

/-- The mnemonic only names the fault: where EffAddr answers, it answers the same for every handler. -/
theorem effAddr_ok_for_every_mnemonic {mn : Mnemonic} {m : Mode} {s : State} {r : Resolved}
    (h : effAddr mn m s = .ok r) (mn' : Mnemonic) : effAddr mn' m s = .ok r := by
  cases m
  case immediate | accumulator | implicit | relative | indirect => cases h
  all_goals exact h

/-- R122: where EffAddr answers, ReadOperand reads the byte at that address. -/
theorem readOperand_of_effAddr {mn : Mnemonic} {m : Mode} {s : State} {r : Resolved}
    (h : effAddr mn m s = .ok r) : readOperand mn m s = .ok r.load := by
  unfold readOperand
  split
  · cases h
  · cases h
  · rw [h]

/-- R123: where EffAddr answers, WriteOperand writes the byte at that address. -/
theorem writeOperand_of_effAddr {mn : Mnemonic} {m : Mode} {s : State} {r : Resolved} (v : Byte)
    (h : effAddr mn m s = .ok r) : writeOperand mn m v s = .ok (writeByte r.addr v r.state) := by
  unfold writeOperand
  split
  · cases h
  · rw [h]

/-- The outcome is a next state whose bus made one read at `a` and then one write at `a` after `b`. -/
def ModifiesCell (b : Bus) (a : Word) (o : Out) : Prop :=
  ∃ t v, o = .next t ∧ t.bus = (b.afterRead a (b.answer a)).afterWrite a v

/-- A handler that ends in `modifyMemory` modifies the resolved cell, when what follows the write
leaves the bus alone. -/
theorem modifyMemory_modifiesCell {mn : Mnemonic} {m : Mode} {s : State} {r : Resolved}
    {f : Byte → Byte} {k : Byte → State → State}
    (h : effAddr mn m s = .ok r) (keepsBus : ∀ v t, (k v t).bus = t.bus) :
    ModifiesCell r.state.bus r.addr (modifyMemory mn m s f k) := by
  simp only [modifyMemory, h]
  exact ⟨_, _, rfl, keepsBus _ _⟩

/-- A shift or rotate modifies the resolved cell: Accumulator mode resolves to none. -/
theorem readModifyWrite_modifiesCell {mn : Mnemonic} {m : Mode} {s : State} {r : Resolved}
    (f : Byte → Bool → Byte × Bool) (h : effAddr mn m s = .ok r) :
    ModifiesCell r.state.bus r.addr (readModifyWrite mn f m s) := by
  unfold readModifyWrite
  split
  · cases h
  · exact modifyMemory_modifiesCell h fun _ _ => rfl

/-- Each of the six read-modify-write instructions modifies the cell its mode resolves to. -/
theorem readModifyWrites_modifyCell {mn : Mnemonic} {m : Mode} {s : State} {r : Resolved}
    (h : effAddr mn m s = .ok r) :
    ∀ i ∈ [Instr.asl m, .lsr m, .rol m, .ror m, .inc m, .dec m],
      ModifiesCell r.state.bus r.addr (exec i s) := by
  have resolves := effAddr_ok_for_every_mnemonic h
  have inc : ModifiesCell r.state.bus r.addr (execInc m s) :=
    modifyMemory_modifiesCell (resolves .inc) fun v => setZN_bus (v + 1)
  have dec : ModifiesCell r.state.bus r.addr (execDec m s) :=
    modifyMemory_modifiesCell (resolves .dec) fun v => setZN_bus (v - 1)
  simp only [List.forall_mem_cons]
  exact ⟨readModifyWrite_modifiesCell shiftLeft (resolves .asl),
    readModifyWrite_modifiesCell shiftRight (resolves .lsr),
    readModifyWrite_modifiesCell rotateLeft (resolves .rol),
    readModifyWrite_modifiesCell rotateRight (resolves .ror),
    inc, dec, List.forall_mem_nil _⟩

/-- Settles O20: on a cell's mode EffAddr answers with one address, and the generic read, the generic
write and the six read-modify-writes all go to it. -/
theorem readAndWriteTargetTheSameAddress : Obligations.ReadAndWriteTargetTheSameAddress := by
  intro mn m s cell
  obtain ⟨noCell, -⟩ | ⟨-, a, c, b, resolved, -, -⟩ := effAddr_cases mn m s
  · exact absurd cell (by simp [noCell])
  · exact ⟨a, c, b, resolved, readOperand_of_effAddr resolved,
      fun v => writeOperand_of_effAddr v resolved, readModifyWrites_modifyCell resolved⟩

end Sys2Proof.Proofs
end

section
/-! PROOFS. 40_address_resolver.md R126: the resolver keeps every register, writes only WriteOperand's
target and reads no flag. -/

namespace Sys2Proof.Proofs

open Sys2Proof Sys2Proof.Machine Sys2Proof.Stated

/-- Off the stored addresses the answers of the bus follow its windows and its flat RAM. -/
theorem otherBytesKept_of_ramRead {b c : Bus} {stored : Word → Prop} (devices : c.devices = b.devices)
    (ram : ∀ a, ¬ stored a → ramRead c.ram a.toNat = ramRead b.ram a.toNat) :
    OtherBytesKept b c stored := by
  refine ⟨devices, fun a notStored => ⟨ram a notStored, fun flat => ?_⟩⟩
  have flat' : c.isDevice a = false := (isDevice_of_devices devices a).trans flat
  rw [answer_of_not_device flat', answer_of_not_device flat, ram a notStored]

/-- Accesses that leave flat RAM as it was keep every byte. -/
theorem otherBytesKept_of_accesses {b c : Bus} (accesses : Accesses b c) (ram : c.ram = b.ram) :
    OtherBytesKept b c fun _ => False :=
  otherBytesKept_of_ramRead accesses.devices fun _ _ => by rw [ram]

/-- One write after such accesses keeps every byte but the one at its own address. -/
theorem otherBytesKept_afterWrite {b c : Bus} (accesses : Accesses b c) (ram : c.ram = b.ram)
    (a : Word) (v : Byte) : OtherBytesKept b (c.afterWrite a v) fun k => k = a :=
  otherBytesKept_of_ramRead accesses.devices fun k other => by
    rw [afterWrite_ramRead_of_ne c v other, ram]

/-- EffAddr changes nothing but the bus, and no byte there. -/
theorem effAddr_frame {mn : Mnemonic} {m : Mode} {s : State} {r : Resolved}
    (h : effAddr mn m s = .ok r) :
    r.state = { s with bus := r.state.bus } ∧ OtherBytesKept s.bus r.state.bus fun _ => False := by
  obtain ⟨-, fault⟩ | ⟨-, a, c, b, resolved, accesses, ram⟩ := effAddr_cases mn m s
  · cases fault.symm.trans h
  · cases resolved.symm.trans h
    exact ⟨rfl, otherBytesKept_of_accesses accesses ram⟩

/-- ReadOperand changes nothing but the bus, and no byte there. -/
theorem readOperand_frame {mn : Mnemonic} {m : Mode} {s : State} {r : Operand}
    (h : readOperand mn m s = .ok r) :
    r.state = { s with bus := r.state.bus } ∧ OtherBytesKept s.bus r.state.bus fun _ => False := by
  obtain ⟨-, fault⟩ | ⟨-, v, c, b, answered, accesses, ram⟩ := readOperand_cases mn m s
  · cases fault.symm.trans h
  · cases answered.symm.trans h
    exact ⟨rfl, otherBytesKept_of_accesses accesses ram⟩

/-- WriteOperand changes A alone in Accumulator mode, and otherwise no byte but the one at the address
EffAddr gives. -/
theorem writeOperand_frame {mn : Mnemonic} {m : Mode} {v : Byte} {s t : State}
    (h : writeOperand mn m v s = .ok t) :
    (m = .accumulator ∧ t = { s with a := v }) ∨
    (t = { s with bus := t.bus } ∧ ∃ r, effAddr mn m s = .ok r ∧
      OtherBytesKept s.bus t.bus fun k => k = r.addr) := by
  obtain ⟨acc, stored⟩ | ⟨-, -, fault⟩ | ⟨-, a, c, b, resolved, accesses, ram, stored⟩ :=
    writeOperand_cases mn m v s
  · cases stored.symm.trans h
    exact .inl ⟨acc, rfl⟩
  · cases fault.symm.trans h
  · cases stored.symm.trans h
    exact .inr ⟨rfl, _, resolved, otherBytesKept_afterWrite accesses ram a v⟩

/-- EffAddr reads no flag: other flags pass through it to the state it gives. -/
theorem effAddr_withFlags (mn : Mnemonic) (m : Mode) (s : State) (f : Flags) :
    effAddr mn m { s with flags := f } =
      (effAddr mn m s).map fun r => { r with state := { r.state with flags := f } } := by
  cases m <;> rfl

/-- ReadOperand reads no flag: its register modes do not, and the others go through EffAddr. -/
theorem readOperand_withFlags (mn : Mnemonic) (m : Mode) (s : State) (f : Flags) :
    readOperand mn m { s with flags := f } =
      (readOperand mn m s).map fun r => { r with state := { r.state with flags := f } } := by
  unfold readOperand
  rw [effAddr_withFlags]
  split
  · rfl
  · rfl
  · cases effAddr mn m s <;> rfl

/-- WriteOperand reads no flag: Accumulator mode does not, and the others go through EffAddr. -/
theorem writeOperand_withFlags (mn : Mnemonic) (m : Mode) (v : Byte) (s : State) (f : Flags) :
    writeOperand mn m v { s with flags := f } =
      (writeOperand mn m v s).map fun t => { t with flags := f } := by
  unfold writeOperand
  rw [effAddr_withFlags]
  split
  · rfl
  · cases effAddr mn m s <;> rfl

/-- Settles O21: the frame of the three resolver operations, then their independence of the flags. -/
theorem resolverWritesOnlyItsTarget : Obligations.ResolverWritesOnlyItsTarget := by
  intro mn m s
  exact ⟨fun _ => effAddr_frame, fun _ => readOperand_frame, fun _ _ => writeOperand_frame,
    effAddr_withFlags mn m s, readOperand_withFlags mn m s,
    fun f v => writeOperand_withFlags mn m v s f⟩

end Sys2Proof.Proofs
end

section
/-! PROOFS. 40_address_resolver.md R110 to R113: the modes that resolve without a read. -/

namespace Sys2Proof.Proofs

open Sys2Proof Sys2Proof.Machine Sys2Proof.Stated

/-- A page-zero address wraps inside page zero when an index is added to it. -/
theorem zext16_add_toNat (o index : Byte) :
    (zext16 (o + index)).toNat = (o.toNat + index.toNat) % 256 :=
  (zext16_toNat _).trans (BitVec.toNat_add o index)

/-- Settles O16: EffAddr answers at once in these modes, with the state as it is; what remains is the
number its page-zero addresses stand for. -/
theorem directModesResolve : Obligations.DirectModesResolve := by
  intro mn o w s
  exact ⟨⟨_, rfl, zext16_toNat o⟩, ⟨_, rfl, zext16_add_toNat o s.x⟩,
    ⟨_, rfl, zext16_add_toNat o s.y⟩, rfl⟩

end Sys2Proof.Proofs
end

section
/-! PROOFS. 43_branch.md: the branch target, the three ends of `Branch(cond)`, and BEQ. -/

namespace Sys2Proof.Proofs

open Sys2Proof Sys2Proof.Machine Sys2Proof.Stated

/-- The count execute returns is the stated `Cycles(I, crossed)`: the extra cycle is added inside the
choice here and outside it in the model. -/
theorem returned_eq_count (s : State) (crossed : Bool) : returned s crossed = count s crossed := by
  unfold returned count cyclesOf
  congr 1
  funext ir
  cases ir.pageCross && crossed <;> rfl

/-- Execute completes with the stated count as the only other change to the state. -/
theorem complete_eq_next_count (crossed : Bool) (s : State) :
    complete crossed s = .next { s with cycleOut := count s crossed } := by
  rw [complete_eq, returned_eq_count]

/-- `sext_16` is the word of the byte's signed value: 0xFF00 is 65536 - 256. -/
theorem sext16_eq_ofInt (v : Byte) : sext16 v = BitVec.ofInt 16 v.toInt := by
  apply BitVec.eq_of_toNat_eq
  have range := v.isLt
  rw [sext16, BitVec.toNat_ofInt, BitVec.toInt_eq_toNat_cond]
  split
  · rw [zext16_toNat, if_pos (by omega)]
    omega
  · have high : (0xFF00 : Word).toNat = 65280 := rfl
    rw [BitVec.toNat_add, zext16_toNat, high, if_neg (by omega)]
    omega

/-- The model's sum of words is the stated branch target, a sum of integers modulo 65536. -/
theorem add_sext16_eq_branchTarget (pc : Word) (o : Byte) : pc + sext16 o = branchTarget pc o := by
  rw [branchTarget, BitVec.ofInt_add, BitVec.ofInt_natCast, BitVec.ofNat_toNat, BitVec.setWidth_eq,
    sext16_eq_ofInt]

/-- R160: a taken branch writes `pc`, its target, and returns the base count. -/
theorem branchIf_taken (mn : Mnemonic) (o : Byte) (s : State) :
    branchIf mn true (.relative o) s =
      .next { s with pc := branchTarget s.pc o, cycleOut := count s false } := by
  rw [← add_sext16_eq_branchTarget]
  exact complete_eq_next_count false _

/-- R160: a branch that is not taken only returns the base count. -/
theorem branchIf_notTaken (mn : Mnemonic) (o : Byte) (s : State) :
    branchIf mn false (.relative o) s = .next { s with cycleOut := count s false } :=
  complete_eq_next_count false s

/-- R160: a branch in any mode but Relative faults. -/
theorem branchIf_fault (mn : Mnemonic) (cond : Bool) {m : Mode} (s : State)
    (h : m.kind ≠ .relative) : branchIf mn cond m s = .fault (.invalidAddressingMode mn m) := by
  cases m
  case relative => exact absurd rfl h
  all_goals rfl

/-- BEQ is `Branch` on Z (R163). -/
theorem exec_beq_eq_branchIf (m : Mode) (s : State) :
    exec (.beq m) s = branchIf .beq s.flags.z m s := rfl

/-- Settles O29: BEQ branches on Z, so its three clauses are the three ends of `Branch(cond)`. -/
theorem beqAddsSignedOffset : Obligations.BeqAddsSignedOffset := by
  refine ⟨by decide +kernel, fun o m s => ⟨fun set => ?_, fun clear => ?_, fun other => ?_⟩⟩
  · rw [exec_beq_eq_branchIf, set, branchIf_taken]
  · rw [exec_beq_eq_branchIf, clear, branchIf_notTaken]
  · exact branchIf_fault .beq _ s other

end Sys2Proof.Proofs
end

section
/-! PROOFS. 44_compare_incdec.md R175 to R180: the increments and decrements, of a memory byte and of an
index register. -/

namespace Sys2Proof.Proofs

open Sys2Proof Sys2Proof.Machine Sys2Proof.Stated

/-- The wrapping successor of a byte, as the spec writes it. -/
theorem add_one_eq_ofNat_mod (v : Byte) : v + 1 = BitVec.ofNat 8 ((v.toNat + 1) % 256) :=
  (add_one_eq v).trans (byte_ofNat_mod _).symm

/-- The wrapping predecessor of a byte: minus 1 is plus 255 modulo 256. -/
theorem sub_one_eq_ofNat_mod (v : Byte) : v - 1 = BitVec.ofNat 8 ((v.toNat + 255) % 256) :=
  (sub_one_eq v).trans (byte_ofNat_mod _).symm

/-- A write after any accesses stores its byte: they keep the windows and the canonical form. -/
theorem byteStored_afterWrite {b c : Bus} (accesses : Accesses b c) (a : Word) (v : Byte) :
    ByteStored b (c.afterWrite a v) a v := by
  intro wf flat
  have flat' : c.isDevice a = false := (accesses.isDevice a).trans flat
  have wf' : Memory.wf c.ram = true := accesses.wf wf
  rw [answer_of_not_device ((afterWrite_isDevice c a v a).trans flat'), afterWrite_ramRead wf',
    if_pos ⟨rfl, flat'⟩]

/-- An instruction that ends in `modifyMemory` completes as stated on a cell's mode, when what follows
the write changes the flags alone. -/
theorem completesModifying_of_modifyMemory {i : Instr} {m : Mode} {s : State} {f : Byte → Byte}
    {k : Byte → State → State} {flags : Byte → Flags}
    (runs : exec i s = modifyMemory i.mnemonic m s f k) (cell : m.isCell = true)
    (writesFlags : ∀ v b, k v { s with bus := b } = { s with bus := b, flags := flags v }) :
    CompletesModifying i m s f flags := by
  obtain ⟨noCell, -⟩ | ⟨-, a, c, b, resolved, accesses, ram, modified⟩ :=
    modifyMemory_cases i.mnemonic m s f k
  · exact absurd cell (by simp [noCell])
  · have accesses' : Accesses s.bus (b.afterRead a (b.answer a)) := accesses.read a
    refine ⟨a, c, b, resolved, ?_, otherBytesKept_afterWrite accesses' ram a _,
      byteStored_afterWrite accesses' a _⟩
    rw [runs, modified, writesFlags]
    exact complete_eq_next_count c _

/-- A handler that replaces a memory byte by `f` of it and ends in SetZN of the new byte completes so,
and writes Z and N only. -/
theorem completesModifying_of_setZN {i : Instr} {m : Mode} {s : State} {f : Byte → Byte}
    (runs : exec i s = modifyMemory i.mnemonic m s f fun v t => setZN (f v) t)
    (cell : m.isCell = true) : CompletesModifying i m s f fun v => zn s.flags (f v) :=
  completesModifying_of_modifyMemory runs cell fun v b =>
    setZNWritesZeroAndSign (f v) { s with bus := b }

/-- Settles O38: INC and DEC are `modifyMemory` with the wrapping successor and predecessor, followed
by SetZN of the new byte. -/
theorem incDecOnMemory : Obligations.IncDecOnMemory := by
  refine ⟨by decide +kernel, by decide +kernel, fun m s cell => ?_⟩
  simp only [← add_one_eq_ofNat_mod, ← sub_one_eq_ofNat_mod]
  exact ⟨completesModifying_of_setZN rfl cell, completesModifying_of_setZN rfl cell⟩

/-- A handler that ends in SetZN returns the base count, and Z and N of the result are the only other
change. -/
theorem complete_setZN (v : Byte) (s : State) :
    complete false (setZN v s) =
      .next { s with flags := zn s.flags v, cycleOut := count s false } := by
  rw [setZNWritesZeroAndSign, complete_eq_next_count]
  rfl

/-- Settles O39: each of the four writes its register and ends in SetZN of it. -/
theorem incDecOnIndexRegisters : Obligations.IncDecOnIndexRegisters := by
  refine ⟨by decide +kernel, fun s => ?_⟩
  simp only [← add_one_eq_ofNat_mod, ← sub_one_eq_ofNat_mod]
  exact ⟨complete_setZN (s.x + 1) { s with x := s.x + 1 },
    complete_setZN (s.y + 1) { s with y := s.y + 1 },
    complete_setZN (s.x - 1) { s with x := s.x - 1 },
    complete_setZN (s.y - 1) { s with y := s.y - 1 }⟩

end Sys2Proof.Proofs
end

section
/-! PROOFS. 45_jump_subroutine.md R185: JMP Absolute, and the fault of a JMP in neither of its modes. -/

namespace Sys2Proof.Proofs

open Sys2Proof Sys2Proof.Machine Sys2Proof.Stated

/-- The decoder on an opcode byte whose row asks for two operand bytes, low byte first. -/
theorem decode_twoOperandBytes {opc : Byte} (lo hi : Byte) (rest : List Byte)
    (width : (rowOf opc).kind.operandWidth = 2) :
    decode (opc :: lo :: hi :: rest) = .ok (instrOf opc lo hi, rest) :=
  decode_cons (ops := [lo, hi]) rest width.symm

/-- Opcode 0x4C is JMP Absolute, its operand little-endian. -/
theorem instrOf_0x4C (lo hi : Byte) : instrOf 0x4C lo hi = .jmp (.absolute (wordOf hi lo)) := by
  have row : definedRow 0x4C = some ⟨0x4C, .jmp, .absolute, 3, false⟩ := by decide +kernel
  rw [instrOf, row]
  rfl

/-- JMP Absolute completes with its operand in `pc`, at the base count. -/
theorem execJmp_absolute (w : Word) (s : State) :
    execJmp (.absolute w) s = .next { s with pc := w, cycleOut := count s false } :=
  complete_eq_next_count false { s with pc := w }

/-- R185: a JMP in neither of its two modes faults. -/
theorem execJmp_fault {m : Mode} (s : State) (notAbsolute : m.kind ≠ .absolute)
    (notIndirect : m.kind ≠ .indirect) :
    execJmp m s = .fault (.invalidAddressingMode .jmp m) := by
  cases m
  case absolute => exact absurd rfl notAbsolute
  case indirect => exact absurd rfl notIndirect
  all_goals rfl

/-- Settles O31: 0x4C decodes to JMP Absolute, whose handler writes `pc` alone and faults in any mode
but Absolute and Indirect. -/
theorem jmpAbsoluteSetsPc : Obligations.JmpAbsoluteSetsPc := by
  intro w lo hi m s
  have decodes : decode [0x4C, lo, hi] = .ok (.jmp (.absolute (wordOf hi lo)), []) := by
    rw [decode_twoOperandBytes lo hi [] (by decide +kernel), instrOf_0x4C]
  exact ⟨decodes, execJmp_absolute w s, execJmp_fault s⟩

end Sys2Proof.Proofs
end

section
/-! PROOFS. 46_flag_nop.md R195 to R201: the seven instructions that set or clear one flag. -/

namespace Sys2Proof.Proofs

open Sys2Proof Sys2Proof.Machine Sys2Proof.Stated

/-- A handler that writes the flags alone returns the base count, and changes nothing else. -/
theorem complete_writeFlags (f : Flags) (s : State) :
    complete false { s with flags := f } =
      .next { s with flags := f, cycleOut := count s false } :=
  complete_eq_next_count false { s with flags := f }

/-- Settles O40: each of the seven handlers is a write of the flags in which one named flag is new. -/
theorem flagInstructionsWriteOneFlag : Obligations.FlagInstructionsWriteOneFlag := by
  refine ⟨by decide +kernel, fun s => ?_⟩
  exact ⟨complete_writeFlags { s.flags with c := false } s,
    complete_writeFlags { s.flags with d := false } s,
    complete_writeFlags { s.flags with i := false } s,
    complete_writeFlags { s.flags with v := false } s,
    complete_writeFlags { s.flags with c := true } s,
    complete_writeFlags { s.flags with d := true } s,
    complete_writeFlags { s.flags with i := true } s⟩

end Sys2Proof.Proofs
end

section
/-! PROOFS. 30_encoding.md R91: the shapes of the handlers, said once for every instruction. -/

namespace Sys2Proof.Proofs

open Sys2Proof Sys2Proof.Machine Sys2Proof.Stated

/-- The shapes the handlers share, each with what tells one handler of the shape from another. -/
inductive Handler where
  /-- no operand: a change of the state -/
  | plain (k : State → State)
  /-- the operand by ReadOperand, then a change of the state -/
  | reading (k : Byte → State → State)
  /-- a byte of the state by WriteOperand -/
  | storing (r : State → Byte)
  /-- a read-modify-write of a cell, then SetZN of the new byte -/
  | modifying (f : Byte → Byte)
  /-- a read-modify-write of a cell or of A, with the carry in and out -/
  | shifting (f : Byte → Bool → Byte × Bool)
  /-- `Branch(cond)` -/
  | branching (cond : Flags → Bool)
  /-- JMP -/
  | jumping
  /-- JSR -/
  | calling

/-- Execute of a handler of the shape, for a mnemonic in a mode. -/
def Handler.run (mn : Mnemonic) (m : Mode) (s : State) : Handler → Out
  | .plain k => complete false (k s)
  | .reading k => withOperand mn m s k
  | .storing r => storeOperand mn m (r s) s
  | .modifying f => modifyMemory mn m s f fun v t => setZN (f v) t
  | .shifting f => readModifyWrite mn f m s
  | .branching cond => branchIf mn (cond s.flags) m s
  | .jumping => execJmp m s
  | .calling => execJsr m s

/-- "One handler per mnemonic": its shape. -/
def handlerOf : Mnemonic → Handler
  | .adc => .reading fun v t => setArithmetic (addWithCarry t.a v t.flags.c) t
  | .sbc => .reading fun v t => setArithmetic (subWithCarry t.a v t.flags.c) t
  | .and => .reading fun v t => setA (t.a &&& v) t
  | .ora => .reading fun v t => setA (t.a ||| v) t
  | .eor => .reading fun v t => setA (t.a ^^^ v) t
  | .cmp => .reading fun v t => compareWith t.a v t
  | .cpx => .reading fun v t => compareWith t.x v t
  | .cpy => .reading fun v t => compareWith t.y v t
  | .bit => .reading fun v t => { t with flags := bitFlags t.a v t.flags }
  | .lda => .reading fun v t => setZN v { t with a := v }
  | .ldx => .reading fun v t => setZN v { t with x := v }
  | .ldy => .reading fun v t => setZN v { t with y := v }
  | .sta => .storing State.a
  | .stx => .storing State.x
  | .sty => .storing State.y
  | .inc => .modifying (· + 1)
  | .dec => .modifying (· - 1)
  | .asl => .shifting shiftLeft
  | .lsr => .shifting shiftRight
  | .rol => .shifting rotateLeft
  | .ror => .shifting rotateRight
  | .bcc => .branching (!·.c)
  | .bcs => .branching (·.c)
  | .beq => .branching (·.z)
  | .bmi => .branching (·.n)
  | .bne => .branching (!·.z)
  | .bpl => .branching (!·.n)
  | .bvc => .branching (!·.v)
  | .bvs => .branching (·.v)
  | .jmp => .jumping
  | .jsr => .calling
  | .rts => .plain fun s => { (pullWord s).state with pc := (pullWord s).value + 1 }
  | .inx => .plain fun s => setZN (s.x + 1) { s with x := s.x + 1 }
  | .iny => .plain fun s => setZN (s.y + 1) { s with y := s.y + 1 }
  | .dex => .plain fun s => setZN (s.x - 1) { s with x := s.x - 1 }
  | .dey => .plain fun s => setZN (s.y - 1) { s with y := s.y - 1 }
  | .clc => .plain fun s => { s with flags := { s.flags with c := false } }
  | .cld => .plain fun s => { s with flags := { s.flags with d := false } }
  | .cli => .plain fun s => { s with flags := { s.flags with i := false } }
  | .clv => .plain fun s => { s with flags := { s.flags with v := false } }
  | .sec => .plain fun s => { s with flags := { s.flags with c := true } }
  | .sed => .plain fun s => { s with flags := { s.flags with d := true } }
  | .sei => .plain fun s => { s with flags := { s.flags with i := true } }
  | .nop => .plain id
  | .tax => .plain fun s => setZN s.a { s with x := s.a }
  | .tay => .plain fun s => setZN s.a { s with y := s.a }
  | .tsx => .plain fun s => setZN s.sp { s with x := s.sp }
  | .txa => .plain fun s => setZN s.x { s with a := s.x }
  | .txs => .plain fun s => { s with sp := s.x }
  | .tya => .plain fun s => setZN s.y { s with a := s.y }
  | .pha => .plain fun s => push s.a s
  | .php => .plain fun s => push (packP true s.flags) s
  | .pla => .plain fun s => setZN (pull s).value { (pull s).state with a := (pull s).value }
  | .plp => .plain fun s =>
      { (pull s).state with flags := unpackP (pull s).value (pull s).state.flags }
  | .brk => .plain fun s => enterTrap (s.pc + 1) s
  | .rti => .plain returnFromTrap

/-- R91: "Execute dispatches on the mnemonic alone". -/
theorem exec_eq_run (i : Instr) (s : State) :
    exec i s = (handlerOf i.mnemonic).run i.mnemonic i.mode s := by
  cases i <;> rfl

/-- The modes a handler of the shape services (R251). -/
def Handler.serves (m : Mode) : Handler → Bool
  | .plain _ => true
  | .reading _ => m.isSource
  | .modifying _ => m.isCell
  | .storing _ | .shifting _ => m.isCell || m == .accumulator
  | .branching _ => m.kind == .relative
  | .jumping => m.kind == .absolute || m.kind == .indirect
  | .calling => m.kind == .absolute

theorem serviced_eq_serves (i : Instr) : serviced i = (handlerOf i.mnemonic).serves i.mode := by
  cases i <;> rfl

end Sys2Proof.Proofs
end

section
/-! PROOFS. 30_encoding.md: the decoder and the encoder undo each other, and the decode table. -/

namespace Sys2Proof.Proofs

open Sys2Proof Sys2Proof.Machine Sys2Proof.Stated

/-- R86: an undefined byte has no row of its own. -/
theorem definedRow_of_undefined {b : Byte} (h : isUndefinedOpcode b = true) : definedRow b = none := by
  have noRow := definedRow_isSome b
  rwa [h, Bool.not_true, Option.isSome_eq_false_iff, Option.isNone_iff_eq_none] at noRow

/-- A byte without a row is an undefined one. -/
theorem undefined_of_definedRow {b : Byte} (h : definedRow b = none) : isUndefinedOpcode b = true := by
  have noRow := definedRow_isSome b
  rw [h] at noRow
  simpa using noRow.symm

/-- R86: the row of an undefined byte is the fallback. -/
theorem rowOf_of_undefined {b : Byte} (h : isUndefinedOpcode b = true) :
    rowOf b = ⟨b, .nop, .implicit, 0, false⟩ := by
  rw [rowOf, definedRow_of_undefined h, Option.getD_none]

/-- R86: an undefined byte stands for the fallback instruction, whatever follows it. -/
theorem instrOf_of_undefined {b : Byte} (h : isUndefinedOpcode b = true) (lo hi : Byte) :
    instrOf b lo hi = .undefinedOpcode b := by
  rw [instrOf, definedRow_of_undefined h]

theorem rowOf_of_definedRow {b : Byte} {r : OpcodeRow} (h : definedRow b = some r) : rowOf b = r := by
  rw [rowOf, h, Option.getD_some]

theorem instrOf_of_definedRow {b : Byte} {r : OpcodeRow} (h : definedRow b = some r) (lo hi : Byte) :
    instrOf b lo hi = r.mnemonic.instr (r.kind.withOperand lo hi) := by
  rw [instrOf, h]

theorem withOperand_kind (k : ModeKind) (lo hi : Byte) : (k.withOperand lo hi).kind = k := by
  cases k <;> rfl

/-- Whatever the operand bytes, an opcode byte stands for its row's mnemonic and variant. -/
theorem instrOf_row (opc lo hi : Byte) :
    (instrOf opc lo hi).mnemonic = (rowOf opc).mnemonic ∧
      (instrOf opc lo hi).mode.kind = (rowOf opc).kind := by
  cases row : definedRow opc with
  | none =>
    have undef := undefined_of_definedRow row
    rw [instrOf_of_undefined undef, rowOf_of_undefined undef]
    exact ⟨rfl, rfl⟩
  | some r =>
    obtain ⟨-, occurs, -⟩ := definedRow_row row
    have kind := withOperand_kind r.kind lo hi
    obtain ⟨sameMnemonic, sameMode, -⟩ := mnemonic_instr (kind.symm ▸ occurs)
    rw [instrOf_of_definedRow row, rowOf_of_definedRow row, sameMnemonic, sameMode]
    exact ⟨rfl, kind⟩

/-- R92: whatever the bytes, the instruction they stand for is well-formed. -/
theorem instrOf_wellFormed (opc lo hi : Byte) : (instrOf opc lo hi).wellFormed = true := by
  obtain ⟨sameMnemonic, sameKind⟩ := instrOf_row opc lo hi
  rw [Instr.wellFormed, Instr.modeOccurs, sameMnemonic, sameKind, Bool.and_eq_true]
  cases row : definedRow opc with
  | none =>
    have undef := undefined_of_definedRow row
    rw [rowOf_of_undefined undef, instrOf_of_undefined undef]
    exact ⟨rfl, undef⟩
  | some r =>
    obtain ⟨-, occurs, -⟩ := definedRow_row row
    refine ⟨rowOf_of_definedRow row ▸ occurs, ?_⟩
    rw [instrOf_of_definedRow row]
    cases r.mnemonic <;> rfl

/-- R80, R81: an instruction that is no fallback is encoded as the opcode byte of its mnemonic and
variant, then its operand bytes. -/
theorem encode_of_not_fallback {i : Instr} (h : ∀ b, i ≠ .undefinedOpcode b) :
    encode i = (opcodeOf i.mnemonic i.mode.kind).map fun opc => opc :: i.mode.operandBytes := by
  unfold encode
  split
  · exact absurd rfl (h _)
  · rfl

/-- R86: the fallback of an undefined byte is encoded as that byte. -/
theorem encode_fallback {b : Byte} (h : isUndefinedOpcode b = true) :
    encode (.undefinedOpcode b) = some [b] := by
  simp [encode, definedRow_of_undefined h]

/-- The decoder reads an undefined byte as its fallback and consumes no other. -/
theorem decode_undefined {b : Byte} (h : isUndefinedOpcode b = true) (rest : List Byte) :
    decode (b :: rest) = .ok (.undefinedOpcode b, rest) := by
  have width : ([] : List Byte).length = (rowOf b).kind.operandWidth := by
    rw [rowOf_of_undefined h]
    rfl
  rw [← instrOf_of_undefined h 0 0]
  exact decode_cons rest width

/-- An instruction of the table is encoded with the opcode byte of its row, from which the decoder
reads it back. -/
theorem encode_then_decode_of_occurs {i : Instr} (occurs : i.modeOccurs = true)
    (notFallback : ∀ b, i ≠ .undefinedOpcode b) :
    ∃ opc, encode i = some (opc :: i.mode.operandBytes) ∧
      ∀ rest, decode (opc :: (i.mode.operandBytes ++ rest)) = .ok (i, rest) := by
  obtain ⟨opc, r, opcode, row, sameMnemonic, sameKind⟩ := opcodeOf_row occurs
  refine ⟨opc, by rw [encode_of_not_fallback notFallback, opcode, Option.map_some], fun rest => ?_⟩
  have width : i.mode.operandBytes.length = (rowOf opc).kind.operandWidth := by
    rw [operandBytes_length, rowOf_of_definedRow row, sameKind]
  rw [decode_cons rest width, instrOf_of_definedRow row, sameMnemonic, sameKind,
    withOperand_operandBytes, instr_mnemonic_mode occurs notFallback]

/-- Settles O11: the fallback is read back from its own byte, and an instruction of the table from the
opcode byte of its row and its operand bytes. -/
theorem decodeUndoesEncode : Obligations.DecodeUndoesEncode := by
  intro i wellFormed
  obtain ⟨occurs, undef⟩ := Bool.and_eq_true_iff.mp wellFormed
  by_cases fallback : ∃ b, i = .undefinedOpcode b
  · obtain ⟨b, rfl⟩ := fallback
    exact ⟨[b], encode_fallback undef, rfl, decode_undefined undef⟩
  · obtain ⟨opc, encoded, decoded⟩ :=
      encode_then_decode_of_occurs occurs fun b isFallback => fallback ⟨b, isFallback⟩
    refine ⟨_, encoded, ?_, decoded⟩
    rw [List.length_cons, operandBytes_length, Nat.add_comm]

/-- The instruction an opcode byte and exactly its operand bytes stand for is encoded as those bytes. -/
theorem encode_instrOf {opc : Byte} {ops : List Byte}
    (width : ops.length = (rowOf opc).kind.operandWidth) :
    encode (instrOf opc (ops.getD 0 0) (ops.getD 1 0)) = some (opc :: ops) := by
  cases row : definedRow opc with
  | none =>
    have undef := undefined_of_definedRow row
    rw [rowOf_of_undefined undef] at width
    rw [instrOf_of_undefined undef, encode_fallback undef, List.eq_nil_of_length_eq_zero width]
  | some r =>
    obtain ⟨-, occurs, opcode⟩ := definedRow_row row
    rw [rowOf_of_definedRow row] at width
    obtain ⟨sameKind, sameBytes⟩ := withOperand_bytes width
    obtain ⟨sameMnemonic, sameMode, notFallback⟩ := mnemonic_instr (sameKind.symm ▸ occurs)
    rw [instrOf_of_definedRow row, encode_of_not_fallback notFallback, sameMnemonic, sameMode, sameKind,
      sameBytes, opcode, Option.map_some]

/-- Settles O12: the decoder consumes an opcode byte and exactly its operand bytes. -/
theorem encodeUndoesDecode : Obligations.EncodeUndoesDecode := by
  intro bytes rest i decoded
  obtain ⟨opc, ops, rfl, width, rfl⟩ := decode_inv decoded
  exact ⟨instrOf_wellFormed _ _ _, opc :: ops, encode_instrOf width, rfl⟩

/-- R85, R87: no opcode byte stands in two rows, and 105 of the 256 bytes are undefined. -/
theorem opcodes_distinct_and_undefined_counted :
    (opcodeTable.map OpcodeRow.opcode).Pairwise (· ≠ ·) ∧
      ((List.range 256).filter fun n => isUndefinedOpcode (BitVec.ofNat 8 n)).length = 105 := by
  decide +kernel

/-- Settles O9: the rows and the undefined bytes are counted, and the bytes without a row are the
undefined ones. -/
theorem decodeTableIsTotalAndUnambiguous : Obligations.DecodeTableIsTotalAndUnambiguous := by
  obtain ⟨distinct, counted⟩ := opcodes_distinct_and_undefined_counted
  exact ⟨rfl, distinct, counted, fun b => ⟨definedRow_isSome b, rowOf_of_undefined⟩⟩

/-- Settles O10: each sample word is computed through the decode table. -/
theorem sampleWordsDecode : Obligations.SampleWordsDecode :=
  ⟨rfl, rfl, rfl, rfl, rfl, rfl, rfl, rfl, rfl⟩

end Sys2Proof.Proofs
end

section
/-! PROOFS. 20_memory.md sections 5 and 7, 10_state.md R27: what every step keeps of the bus, and the
break flag. -/

namespace Sys2Proof.Proofs

open Sys2Proof Sys2Proof.Machine Sys2Proof.Stated

/-- Settles O52: a step moves the bus by accesses, and accesses keep the canonical form. -/
theorem stepKeepsMemoryCanonical : Obligations.StepKeepsMemoryCanonical := by
  intro s t canonical stepped
  obtain ⟨accesses, -, -⟩ := step_kept stepped
  exact accesses.wf canonical

/-- Whether the reads of a history were coherent depends on the bus by its windows alone. -/
theorem readsCoherent_congr {image : Word → Byte} {b c : Bus} (devices : c.devices = b.devices)
    {history : List Access} (h : readsCoherent image b history) : readsCoherent image c history := by
  induction history with
  | nil => trivial
  | cons e older ih =>
    obtain ⟨answered, older⟩ := h
    exact ⟨fun read flat => answered read ((isDevice_of_devices devices e.addr).symm.trans flat),
      ih older⟩

theorem lastWritten_read (image : Word → Byte) (older : List Access) (a k : Word) (v : Byte) :
    lastWritten image (⟨.read, a, v⟩ :: older) k = lastWritten image older k := by
  simp [lastWritten]

theorem lastWritten_write (image : Word → Byte) (older : List Access) (a k : Word) (v : Byte) :
    lastWritten image (⟨.write, a, v⟩ :: older) k =
      if k = a then v else lastWritten image older k := by
  simp [lastWritten, eq_comm]

/-- A read keeps the bus coherent: of flat RAM it is answered with what was last written. -/
theorem busCoherent_afterRead {image : Word → Byte} {b : Bus} (h : BusCoherent image b) (a : Word) :
    BusCoherent image (b.afterRead a (b.answer a)) := by
  obtain ⟨canonical, holds, answered⟩ := h
  refine ⟨canonical, fun k flat => ?_, fun _ flat => ?_,
    readsCoherent_congr (afterRead_devices b a _) answered⟩
  · rw [afterRead_history, lastWritten_read]
    exact holds k flat
  · have flat : b.isDevice a = false := flat
    rw [answer_of_not_device flat, holds a flat]

/-- A write keeps the bus coherent: flat RAM holds the byte at its address, and the rest as before. -/
theorem busCoherent_afterWrite {image : Word → Byte} {b : Bus} (h : BusCoherent image b) (a : Word)
    (v : Byte) : BusCoherent image (b.afterWrite a v) := by
  obtain ⟨canonical, holds, answered⟩ := h
  refine ⟨afterWrite_wf canonical a v, fun k flat => ?_, fun isRead => ?_,
    readsCoherent_congr (afterWrite_devices b a v) answered⟩
  case refine_2 => cases isRead
  have flat : b.isDevice k = false := flat
  rw [afterWrite_history, lastWritten_write, afterWrite_ramRead canonical]
  by_cases same : k = a
  · subst same
    rw [if_pos ⟨rfl, flat⟩, if_pos rfl]
  · rw [if_neg (same ·.1), if_neg same, holds k flat]

/-- Accesses keep the bus coherent. -/
theorem accesses_keep_busCoherent {image : Word → Byte} {b c : Bus} (accesses : Accesses b c)
    (h : BusCoherent image b) : BusCoherent image c := by
  induction accesses with
  | none => exact h
  | read a _ ih => exact busCoherent_afterRead ih a
  | write a v _ ih => exact busCoherent_afterWrite ih a v

/-- Settles O53: a step moves the bus by accesses, each of which keeps it coherent. -/
theorem stepKeepsBusCoherent : Obligations.StepKeepsBusCoherent := by
  intro image s t coherent stepped
  obtain ⟨accesses, -, -⟩ := step_kept stepped
  exact accesses_keep_busCoherent accesses coherent

/-- Settles O15: fetch and execute both move the bus by accesses, each from where the one before it
ended. -/
theorem stepAppendsToTheAccessHistory : Obligations.StepAppendsToTheAccessHistory := by
  intro s t stepped
  obtain ⟨accesses, -, -⟩ := step_kept stepped
  obtain ⟨inExecute, -, -⟩ := exec_kept stepped
  obtain ⟨b, fetched, inFetch, -⟩ := fetch_state s
  refine ⟨inExecute.history, ?_, accesses.devices⟩
  rw [fetched]
  exact inFetch.history

/-- Settles O54: no step and no reset changes B, so by induction no reachable core has another. -/
theorem breakFlagNeverChanges : Obligations.BreakFlagNeverChanges := by
  have step_keeps {s t : State} (stepped : step s = .next t) : t.flags.b = s.flags.b := by
    obtain ⟨-, kept, -⟩ := step_kept stepped
    exact kept
  have reset_keeps (s : State) : (resetCore s).flags.b = s.flags.b := by rw [resetCore_flags]
  refine ⟨fun _ _ => step_keeps, reset_keeps, fun init bus s reachable => ?_⟩
  induction reachable with
  | powerOn => rfl
  | reset _ ih => exact (reset_keeps _).trans ih
  | step _ stepped ih => exact (step_keeps stepped).trans ih

end Sys2Proof.Proofs
end

section
/-! PROOFS. 20_memory.md sections 2, 6 and 7, 70_reset_and_hazards.md section 1: words, flat RAM, the
stack and reset. -/

namespace Sys2Proof.Proofs

open Sys2Proof Sys2Proof.Machine Sys2Proof.Stated

theorem wordOf_toNat (hi lo : Byte) : (wordOf hi lo).toNat = hi.toNat * 256 + lo.toNat := by
  have := hi.isLt
  have := lo.isLt
  rw [wordOf, BitVec.toNat_ofNat]
  omega

/-- A word is its low byte, joined bit by bit with the high byte shifted left by 8. -/
theorem wordOf_toNat_eq_or (hi lo : Byte) :
    (wordOf hi lo).toNat = lo.toNat ||| (hi.toNat <<< 8) := by
  have joined := Nat.two_pow_add_eq_or_of_lt (i := 8) lo.isLt hi.toNat
  rw [wordOf_toNat, Nat.shiftLeft_eq, Nat.or_comm, Nat.mul_comm]
  exact joined

/-- Settles O5: `readWord` is two byte reads, and its value is the word of their answers. -/
theorem getWordReadsLowThenHigh : Obligations.GetWordReadsLowThenHigh := by
  intro a s
  exact ⟨a + 1, BitVec.toNat_add a 1, wordOf_toNat_eq_or _ _, rfl⟩

/-- Outside the device windows a read changes no later answer. -/
theorem afterRead_answer {b : Bus} {k : Word} (flat : b.isDevice k = false) (a : Word) (v : Byte) :
    (b.afterRead a v).answer k = b.answer k := by
  have flat' : (b.afterRead a v).isDevice k = false := flat
  rw [answer_of_not_device flat, answer_of_not_device flat', afterRead_ram]

/-- Outside the device windows a write to flat RAM changes the answer at its own address alone. -/
theorem afterWrite_answer {b : Bus} {a k : Word} (canonical : Memory.wf b.ram = true)
    (flat : b.isDevice a = false) (flatK : b.isDevice k = false) (v : Byte) :
    (b.afterWrite a v).answer k = if k = a then v else b.answer k := by
  have flatK' : (b.afterWrite a v).isDevice k = false := flatK
  rw [answer_of_not_device flatK', answer_of_not_device flatK, afterWrite_ramRead canonical]
  simp only [flat, and_true]

/-- Settles O7: the answers of flat RAM after a write and after a read. -/
theorem flatRamReadAfterWrite : Obligations.FlatRamReadAfterWrite := by
  intro s a k v canonical flat flatK
  exact ⟨afterWrite_answer canonical flat flatK v, afterRead_answer flatK a _⟩

/-- The read of the low byte does not change a high byte that lies in flat RAM. -/
theorem readWord_value_of_flat {a : Word} {s : State} (flatNext : s.bus.isDevice (a + 1) = false) :
    (readWord a s).value = wordOf (s.bus.answer (a + 1)) (s.bus.answer a) := by
  rw [← afterRead_answer flatNext a (s.bus.answer a)]
  rfl

/-- R53, R52: over flat RAM a word read gives back the word written. -/
theorem readWord_writeWord {a : Word} {s : State} (v : Word) (canonical : Memory.wf s.bus.ram = true)
    (flat : s.bus.isDevice a = false) (flatNext : s.bus.isDevice (a + 1) = false) :
    (readWord a (writeWord a v s)).value = v := by
  have next : a ≠ a + 1 := by bv_omega
  have canonical' := afterWrite_wf canonical a (loByte v)
  have value := readWord_value_of_flat (s := writeWord a v s) flatNext
  rw [value, writeWord_bus, afterWrite_answer canonical' flatNext flatNext,
    afterWrite_answer canonical' flatNext flat, if_pos rfl, if_neg next,
    afterWrite_answer canonical flat flat, if_pos rfl, wordOf_hiByte_loByte]

theorem loByte_eq_ofNat_mod (w : Word) : loByte w = BitVec.ofNat 8 (w.toNat % 256) :=
  (byte_ofNat_mod w.toNat).symm

/-- Settles O6: the history of `writeWord` shows its order, and a read gives the word back. -/
theorem setWordThenGetWord : Obligations.SetWordThenGetWord := by
  intro a v s
  refine ⟨?_, readWord_writeWord v⟩
  rw [← loByte_eq_ofNat_mod]
  rfl

/-- The stack address is the stated one, 0x0100 + S. -/
theorem stackAddr_eq_stackByte (sp : Byte) : stackAddr sp = stackByte sp := by
  have := sp.isLt
  apply BitVec.eq_of_toNat_eq
  rw [stackAddr_toNat, stackByte, BitVec.toNat_ofNat]
  omega

/-- R65: always in page 1. -/
theorem stackByte_toNat (sp : Byte) : (stackByte sp).toNat = 0x0100 + sp.toNat := by
  rw [← stackAddr_eq_stackByte, stackAddr_toNat]

theorem stackByte_inj {p q : Byte} : stackByte p = stackByte q ↔ p = q := by
  rw [← stackAddr_eq_stackByte, ← stackAddr_eq_stackByte, stackAddr_inj]

theorem push_eq (v : Byte) (s : State) :
    push v s = { s with sp := s.sp - 1, bus := s.bus.afterWrite (stackByte s.sp) v } := by
  rw [← stackAddr_eq_stackByte]
  rfl

theorem pull_eq (s : State) :
    pull s = ⟨s.bus.answer (stackByte (s.sp + 1)), { s with
      sp := s.sp + 1
      bus := s.bus.afterRead (stackByte (s.sp + 1)) (s.bus.answer (stackByte (s.sp + 1))) }⟩ := by
  rw [← stackAddr_eq_stackByte]
  rfl

theorem pull_value (s : State) : (pull s).value = s.bus.answer (stackByte (s.sp + 1)) := by
  rw [pull_eq]

theorem pull_state (s : State) :
    (pull s).state = { s with
      sp := s.sp + 1
      bus := s.bus.afterRead (stackByte (s.sp + 1)) (s.bus.answer (stackByte (s.sp + 1))) } := by
  rw [pull_eq]

/-- R65: over flat RAM a Pull after a Push gives the byte back. -/
theorem pull_push_value {s : State} (v : Byte) (canonical : Memory.wf s.bus.ram = true)
    (flat : s.bus.isDevice (stackByte s.sp) = false) : (pull (push v s)).value = v := by
  rw [pull_value, push_eq]
  dsimp only
  rw [BitVec.sub_add_cancel, afterWrite_answer canonical flat flat, if_pos rfl]

/-- Settles O8: Push and Pull as updates of S and the bus, and the round trip. -/
theorem pullGivesBackThePushedByte : Obligations.PullGivesBackThePushedByte := by
  intro v s
  rw [← sub_one_eq, ← add_one_eq]
  refine ⟨push_eq v s, pull_value s, pull_state s, stackByte_toNat s.sp, fun canonical flat => ?_⟩
  refine ⟨pull_push_value v canonical flat, ?_⟩
  rw [pull_state, push_eq]
  exact BitVec.sub_add_cancel s.sp 1

/-- Settles O3: reset is a word read at the vector, then the write of `pc` and the latch. -/
theorem resetLoadsPcFromVector : Obligations.ResetLoadsPcFromVector := by
  intro s
  refine ⟨s.bus.answer 0xFFFC, (s.bus.afterRead 0xFFFC (s.bus.answer 0xFFFC)).answer 0xFFFD, rfl,
    fun flat => answer_of_not_device flat, fun flat => ?_⟩
  rw [afterRead_answer flat]
  exact answer_of_not_device flat

/-- A blank bus is coherent over the image of unlisted bytes: it has no history yet. -/
theorem busCoherent_blank : BusCoherent (fun _ => unlistedByte) Bus.blank :=
  ⟨rfl, fun _ _ => rfl, trivial⟩

/-- Settles O4: reset makes accesses on the blank bus, which is coherent. -/
theorem resetStateMeetsTheInvariants : Obligations.ResetStateMeetsTheInvariants := by
  have isReset : State.reset = resetCore (State.powerOn Init.zero Bus.blank) := rfl
  have accesses : Accesses Bus.blank State.reset.bus := by
    rw [isReset]
    exact readWord_accesses Config.resetVector (State.powerOn Init.zero Bus.blank)
  exact ⟨isReset, accesses.wf rfl, accesses_keep_busCoherent accesses busCoherent_blank⟩

end Sys2Proof.Proofs
end

section
/-! PROOFS. 30_encoding.md section 2, 70_reset_and_hazards.md section 2: fetch, the step over it, and
the step at an undefined byte (46_flag_nop.md R204). -/

namespace Sys2Proof.Proofs

open Sys2Proof Sys2Proof.Machine Sys2Proof.Stated

/-- R81, R83: the operand bytes are read one by one in ascending address order, and nothing else
happens. -/
theorem fetchOperand_reads {width : Nat} (le : width ≤ 2) (at' : Word) (s : State) :
    ∃ reads : List Access,
      reads.map Access.addr = (List.range width).map (fun k => at' + BitVec.ofNat 16 k) ∧
      (∀ e ∈ reads, e.kind = .read) ∧
      (fetchOperand width at' s).state =
        { s with bus := { s.bus with history := reads.reverse ++ s.bus.history } } := by
  match width, le with
  | 0, _ => exact ⟨[], rfl, List.forall_mem_nil _, rfl⟩
  | 1, _ =>
    refine ⟨[⟨.read, at', s.bus.answer at'⟩], ?_, by simp, rfl⟩
    simp
  | 2, _ =>
    refine ⟨[⟨.read, at', s.bus.answer at'⟩,
      ⟨.read, at' + 1, (s.bus.afterRead at' (s.bus.answer at')).answer (at' + 1)⟩], ?_, by simp, rfl⟩
    simp [List.range_succ]

/-- `pc` past the opcode byte and `width` operand bytes. -/
theorem pc_past (pc : Word) (width : Nat) :
    pc + 1 + BitVec.ofNat 16 width = BitVec.ofNat 16 (pc.toNat + 1 + width) := by
  rw [BitVec.ofNat_add, BitVec.ofNat_add, BitVec.ofNat_toNat, BitVec.setWidth_eq]
  rfl

/-- Settles O13: the opcode byte is read first, then the operand bytes. -/
theorem fetchReadsExactlyTheInstruction : Obligations.FetchReadsExactlyTheInstruction := by
  intro s
  obtain ⟨reads, addrs, areReads, operands⟩ := fetchOperand_reads
    (operandWidth_le (rowOf (readByte s.pc s).value).kind) (s.pc + 1) (readByte s.pc s).state
  obtain ⟨sameMnemonic, sameKind⟩ := instrOf_row (s.peek s.pc) _ _
  refine ⟨⟨.read, s.pc, s.peek s.pc⟩ :: reads, ?_, List.forall_mem_cons.mpr ⟨rfl, areReads⟩,
    sameMnemonic, sameKind, ?_⟩
  · have next (k : Nat) : s.pc + BitVec.ofNat 16 (k + 1) = s.pc + 1 + BitVec.ofNat 16 k := by
      rw [Nat.add_comm, BitVec.ofNat_add, BitVec.add_assoc]
      rfl
    rw [Nat.add_comm 1, List.range_succ_eq_map, List.map_cons, List.map_cons, List.map_map, addrs]
    simp only [Function.comp_def, Nat.succ_eq_add_one, next, BitVec.add_zero]
    rfl
  · rw [← pc_past]
    simp only [fetch, operands, List.reverse_cons, List.append_assoc]
    rfl

/-- A step whose opcode byte asks for `width` operand bytes. -/
theorem step_of_width {s : State} {width : Nat}
    (h : (rowOf (s.peek s.pc)).kind.operandWidth = width) :
    let ops := fetchOperand width (s.pc + 1) (readByte s.pc s).state
    let i := instrOf (s.peek s.pc) ops.value.1 ops.value.2
    step s = exec i { ops.state with
      pc := s.pc + BitVec.ofNat 16 (1 + width)
      ir := some ⟨i, (rowOf (s.peek s.pc)).cycles, (rowOf (s.peek s.pc)).pageCross⟩ } := by
  subst h
  rw [BitVec.ofNat_add, ← BitVec.add_assoc]
  rfl

/-- Settles O14: the bytes decode to what fetch assembles, for each of the three lengths. -/
theorem stepExecutesTheDecodedInstruction : Obligations.StepExecutesTheDecodedInstruction := by
  intro s i rest r0 r1 r2 decoded
  obtain ⟨opc, ops, bytes, width, rfl⟩ := decode_inv decoded
  obtain ⟨rfl, tail⟩ := List.cons_eq_cons.mp bytes
  have stepped := step_of_width width.symm
  rcases ops with _ | ⟨lo, _ | ⟨hi, more⟩⟩
  · obtain rfl : _ = rest := tail
    exact stepped
  · obtain ⟨rfl, rfl⟩ := List.cons_eq_cons.mp tail
    exact stepped
  · obtain ⟨rfl, afterLow⟩ := List.cons_eq_cons.mp tail
    obtain ⟨rfl, afterHigh⟩ := List.cons_eq_cons.mp afterLow
    obtain ⟨rfl, rfl⟩ := List.append_eq_nil_iff.mp afterHigh.symm
    have next : s.pc + 1 + 1 = s.pc + 2 := BitVec.add_assoc s.pc 1 1
    simp only [List.length_cons, List.length_nil, fetchOperand, next] at stepped
    exact stepped

/-- NOP and the fallback end execute at once (R203, R204). -/
theorem exec_undefinedOpcode (b : Byte) (s : State) :
    exec (.undefinedOpcode b) s = .next { s with cycleOut := count s false } :=
  complete_eq_next_count false s

/-- A step at an undefined byte reads that byte alone, moves `pc` by 1 and returns 0 cycles. -/
theorem step_undefined {s : State} (h : isUndefinedOpcode (s.peek s.pc) = true) :
    step s = .next { s with
      pc := s.pc + 1
      ir := some ⟨.undefinedOpcode (s.peek s.pc), 0, false⟩
      bus := s.bus.afterRead s.pc (s.peek s.pc)
      cycleOut := some 0 } := by
  have width : (rowOf (s.peek s.pc)).kind.operandWidth = 0 := by
    rw [rowOf_of_undefined h]
    rfl
  rw [step_of_width width, instrOf_of_undefined h, rowOf_of_undefined h, exec_undefinedOpcode]
  rfl

/-- Settles O41: NOP and the fallback end execute at once, and an undefined byte's step is a fetch of
that byte. -/
theorem nopAndUndefinedBytesDoNothing : Obligations.NopAndUndefinedBytesDoNothing := by
  intro b s
  exact ⟨complete_eq_next_count false s, exec_undefinedOpcode b s, step_undefined⟩

end Sys2Proof.Proofs
end

section
/-! PROOFS. 40_address_resolver.md R114 to R124: the indexed and indirect modes, and the modes without
a cell. -/

namespace Sys2Proof.Proofs

open Sys2Proof Sys2Proof.Machine Sys2Proof.Stated

theorem hiByte_toNat (w : Word) : (hiByte w).toNat = w.toNat / 256 := by
  have := w.isLt
  rw [hiByte, BitVec.toNat_ofNat]
  omega

/-- D25: the index is added modulo 65536. -/
theorem indexed_addr_toNat (base : Word) (index : Byte) (s : State) :
    (indexed base index s).addr.toNat = (base.toNat + index.toNat) % 65536 := by
  rw [← zext16_toNat index]
  exact BitVec.toNat_add base (zext16 index)

/-- R125: the page is crossed when the high byte changes. -/
theorem indexed_crossed_iff (base : Word) (index : Byte) (s : State) :
    (indexed base index s).crossed = true ↔
      (indexed base index s).addr.toNat / 256 ≠ base.toNat / 256 := by
  rw [← hiByte_toNat, ← hiByte_toNat, Ne, BitVec.toNat_inj]
  exact bne_iff_ne

/-- Settles O17: both modes are `indexed` at their operand. -/
theorem absoluteIndexedModesResolve : Obligations.AbsoluteIndexedModesResolve := by
  intro mn w s
  exact ⟨⟨_, _, rfl, indexed_addr_toNat w s.x s, indexed_crossed_iff w s.x s⟩,
    ⟨_, _, rfl, indexed_addr_toNat w s.y s, indexed_crossed_iff w s.y s⟩⟩

/-- Settles O18: IndirectX is a word read at its page-zero pointer, IndirectY is `indexed` at the word
read at its own. -/
theorem indirectModesResolve : Obligations.IndirectModesResolve := by
  intro mn o s
  refine ⟨⟨zext16 (o + s.x), zext16_add_toNat o s.x, rfl⟩, ⟨zext16 o, zext16_toNat o, ?_⟩⟩
  intro lo b1 hi base
  have based : (wordOf hi lo).toNat = base := wordOf_toNat hi lo
  rw [← based]
  exact ⟨_, _, rfl, indexed_addr_toNat (wordOf hi lo) s.y s, indexed_crossed_iff (wordOf hi lo) s.y s⟩

/-- R121: EffAddr faults in a mode that names no cell. -/
theorem effAddr_of_not_cell {m : Mode} (mn : Mnemonic) (s : State) (h : m.isCell = false) :
    effAddr mn m s = .error (.invalidAddressingMode mn m) := by
  obtain ⟨-, fault⟩ | ⟨cell, -⟩ := effAddr_cases mn m s
  · exact fault
  · exact absurd cell (by simp [h])

/-- R122: ReadOperand faults in a mode that is no source. -/
theorem readOperand_of_not_source {m : Mode} (mn : Mnemonic) (s : State) (h : m.isSource = false) :
    readOperand mn m s = .error (.invalidAddressingMode mn m) := by
  obtain ⟨-, fault⟩ | ⟨source, -⟩ := readOperand_cases mn m s
  · exact fault
  · exact absurd source (by simp [h])

/-- R123: WriteOperand faults in a mode that names neither a cell nor A. -/
theorem writeOperand_of_not_target {m : Mode} (mn : Mnemonic) (v : Byte) (s : State)
    (h : m.isCell = false) (notA : m ≠ .accumulator) :
    writeOperand mn m v s = .error (.invalidAddressingMode mn m) := by
  obtain ⟨acc, -⟩ | ⟨-, -, fault⟩ | ⟨cell, -⟩ := writeOperand_cases mn m v s
  · exact absurd acc notA
  · exact fault
  · exact absurd cell (by simp [h])

/-- Settles O19: Immediate and Accumulator answer from the operand and from A; the rest fault. -/
theorem modesWithoutACell : Obligations.ModesWithoutACell := by
  intro mn m o v s
  exact ⟨rfl, rfl, rfl, effAddr_of_not_cell mn s, readOperand_of_not_source mn s,
    writeOperand_of_not_target mn v s⟩

end Sys2Proof.Proofs
end

section
/-! PROOFS. 41_arithmetic_logic.md, 44_compare_incdec.md, 47_load_store_transfer.md: the instructions
that read an operand, the stores and the transfers. -/

namespace Sys2Proof.Proofs

open Sys2Proof Sys2Proof.Machine Sys2Proof.Stated

/-- Execute completes with the count of the latch it started with, where the latch is kept. -/
theorem complete_eq_next_count_of_latch {s t : State} (latch : t.ir = s.ir) (crossed : Bool) :
    complete crossed t = .next { t with cycleOut := count s crossed } := by
  rw [complete_eq_next_count, count, count, latch]

/-- An instruction that ends in `withOperand` completes as stated on a source's mode, when what follows
the read is the stated result over any bus and keeps the latch. -/
theorem completesReading_of_withOperand {i : Instr} {m : Mode} {s : State} {k : Byte → State → State}
    {result : Byte → State} (runs : exec i s = withOperand i.mnemonic m s k)
    (source : m.isSource = true)
    (gives : ∀ v b, k v { s with bus := b } = { result v with bus := b })
    (keepsLatch : ∀ v, (result v).ir = s.ir) : CompletesReading i m s result := by
  obtain ⟨notSource, -⟩ | ⟨-, v, c, b, answered, accesses, ram, completed⟩ :=
    withOperand_cases i.mnemonic m s k
  · exact absurd source (by simp [notSource])
  · refine ⟨v, c, b, answered, ?_, otherBytesKept_of_accesses accesses ram⟩
    rw [runs, completed, gives]
    exact complete_eq_next_count_of_latch (t := { result v with bus := b }) (keepsLatch v) c

/-- R143 to R145: a result in A, with Z and N of it, and the bus aside. -/
theorem completesReading_of_setA {i : Instr} {m : Mode} {s : State} {f : Byte → Byte → Byte}
    (runs : exec i s = withOperand i.mnemonic m s fun v t => setA (f t.a v) t)
    (source : m.isSource = true) :
    CompletesReading i m s fun v => { s with a := f s.a v, flags := zn s.flags (f s.a v) } :=
  completesReading_of_withOperand runs source (fun v _ => setZNWritesZeroAndSign (f s.a v) _)
    fun _ => rfl

/-- Settles O25: AND, ORA and EOR write their result by the one shared operation. -/
theorem logicCombinesWithAccumulator : Obligations.LogicCombinesWithAccumulator := by
  intro m s source
  exact ⟨completesReading_of_setA (f := (· &&& ·)) rfl source,
    completesReading_of_setA (f := (· ||| ·)) rfl source,
    completesReading_of_setA (f := (· ^^^ ·)) rfl source⟩

/-- R211 to R213: a load writes its register, then Z and N of the byte. -/
theorem completesReading_of_load {i : Instr} {m : Mode} {s : State} {register : Byte → State → State}
    (runs : exec i s = withOperand i.mnemonic m s fun v t => setZN v (register v t))
    (source : m.isSource = true)
    (ofBus : ∀ v b, register v { s with bus := b } = { register v s with bus := b })
    (keeps : ∀ v, (register v s).flags = s.flags ∧ (register v s).ir = s.ir) :
    CompletesReading i m s fun v => { register v s with flags := zn s.flags v } := by
  refine completesReading_of_withOperand runs source (fun v b => ?_) fun v => (keeps v).2
  rw [setZNWritesZeroAndSign, ofBus, ← (keeps v).1]

/-- Settles O42: each load writes its register and ends in SetZN of the byte. -/
theorem loadsMoveTheOperand : Obligations.LoadsMoveTheOperand := by
  intro m s source
  exact ⟨completesReading_of_load (register := fun v t => { t with a := v }) rfl source
      (fun _ _ => rfl) fun _ => ⟨rfl, rfl⟩,
    completesReading_of_load (register := fun v t => { t with x := v }) rfl source
      (fun _ _ => rfl) fun _ => ⟨rfl, rfl⟩,
    completesReading_of_load (register := fun v t => { t with y := v }) rfl source
      (fun _ _ => rfl) fun _ => ⟨rfl, rfl⟩⟩

/-- R170: the stated flags of a compare; N is bit 7 of the difference modulo 256. -/
theorem compareFlags_eq (reg v : Byte) (f : Flags) :
    compareFlags reg v f = { f with
      c := decide (v.toNat ≤ reg.toNat)
      z := decide (reg = v)
      n := decide (128 ≤ (reg.toNat + 256 - v.toNat) % 256) } := by
  have difference : (reg - v).toNat = (reg.toNat + 256 - v.toNat) % 256 := by
    have := v.isLt
    rw [BitVec.toNat_sub]
    omega
  rw [compareFlags, getLsbD_seven, difference, beq_eq_decide]

/-- A compare ends in `compareWith` of its register. -/
theorem completesReading_of_compareWith {i : Instr} {m : Mode} {s : State} (reg : State → Byte)
    (runs : exec i s = withOperand i.mnemonic m s fun v t => compareWith (reg t) v t)
    (ofBus : ∀ b, reg { s with bus := b } = reg s) (source : m.isSource = true) :
    CompletesReading i m s fun v => { s with flags := compareFlags (reg s) v s.flags } :=
  completesReading_of_withOperand runs source (fun v b => by rw [ofBus]; rfl) fun _ => rfl

/-- Settles O36: the three compares differ in their register alone. -/
theorem compareSetsCarryZeroSign : Obligations.CompareSetsCarryZeroSign := by
  intro m s source
  simp only [← compareFlags_eq]
  exact ⟨completesReading_of_compareWith State.a rfl (fun _ => rfl) source,
    completesReading_of_compareWith State.x rfl (fun _ => rfl) source,
    completesReading_of_compareWith State.y rfl (fun _ => rfl) source⟩

/-- Settles O37: BIT writes the flags alone, from bits 7 and 6 of the byte and from its meet with A. -/
theorem bitTestsMemoryAgainstA : Obligations.BitTestsMemoryAgainstA := by
  intro m s source
  have runs : exec (.bit m) s =
      withOperand .bit m s fun v t => { t with flags := bitFlags t.a v t.flags } := rfl
  refine completesReading_of_withOperand runs source (fun v b => ?_) fun _ => rfl
  rw [bitFlags, getLsbD_seven, getLsbD_six, beq_eq_decide]

theorem bitNat_eq_bit : bitNat = bit := rfl

theorem bit_le_one (b : Bool) : bit b ≤ 1 := by cases b <;> decide

/-- R141, R142: a sum or difference in A, with its carry and overflow, then Z and N of it. -/
theorem setArithmetic_eq (r : AluResult) (s : State) :
    setArithmetic r s = { s with
      a := r.value
      flags := zn { s.flags with c := r.carry, v := r.overflow } r.value } :=
  setZNWritesZeroAndSign r.value _

/-- ADC and SBC end in the shared write of an arithmetic result. -/
theorem completesReading_of_setArithmetic {i : Instr} {m : Mode} {s : State}
    {alu : Byte → Byte → Bool → AluResult}
    (runs : exec i s = withOperand i.mnemonic m s fun v t => setArithmetic (alu t.a v t.flags.c) t)
    (source : m.isSource = true) :
    CompletesReading i m s fun v => setArithmetic (alu s.a v s.flags.c) s :=
  completesReading_of_withOperand runs source (fun _ _ => rfl) fun _ => rfl

/-- The sign-bit XOR in the stated words. -/
theorem overflowOf_eq_decide (p q r : Byte) :
    overflowOf p q r = decide ((p ^^^ r) &&& (q ^^^ r) &&& 0x80 ≠ 0) := by
  rw [overflowOf, Bool.eq_iff_iff, bne_iff_ne, decide_eq_true_iff]

/-- The model's ADC sum is the stated one: the carry of either add, and the sign-bit XOR. -/
theorem addWithCarry_eq (a m : Byte) (c : Bool) :
    addWithCarry a m c =
      let s1 := a.toNat + m.toNat
      let s2 := s1 % 256 + bit c
      let r : Byte := BitVec.ofNat 8 (s2 % 256)
      { value := r, carry := decide (s1 > 0xFF ∨ s2 > 0xFF),
        overflow := decide ((m ^^^ r) &&& (a ^^^ r) &&& 0x80 ≠ 0) } := by
  simp only [← overflowOf_eq_decide, Bool.decide_or, byte_ofNat_mod]
  rfl

/-- Settles O22: the opcode bytes by the table, the rest by the write of ADC's sum. -/
theorem adcAddsOperandAndCarry : Obligations.AdcAddsOperandAndCarry := by
  refine ⟨by decide, fun m s source => ?_⟩
  have completes :=
    completesReading_of_setArithmetic (i := .adc m) (s := s) (alu := addWithCarry) rfl source
  simpa only [setArithmetic_eq, addWithCarry_eq] using completes

theorem addWithCarry_value (a m : Byte) (c : Bool) :
    (addWithCarry a m c).value = BitVec.ofNat 8 (a.toNat + m.toNat + bit c) := by
  rw [addWithCarry_eq]
  apply BitVec.eq_of_toNat_eq
  simp only [BitVec.toNat_ofNat]
  omega

/-- C is the ninth bit of the sum. -/
theorem addWithCarry_carry_iff (a m : Byte) (c : Bool) :
    (addWithCarry a m c).carry = true ↔ a.toNat + m.toNat + bit c > 255 := by
  have := a.isLt
  have := m.isLt
  have := bit_le_one c
  rw [addWithCarry_eq, decide_eq_true_iff]
  omega

/-- The sign-bit XOR of a sum says that the signed sum left -128..127: both operands have one sign and
the result has the other. -/
theorem overflowOf_sum_iff (p q : Byte) {carry : Nat} (le : carry ≤ 1) :
    overflowOf p q (BitVec.ofNat 8 (q.toNat + p.toNat + carry)) = true ↔
      (q.toInt + p.toInt + carry < -128 ∨ q.toInt + p.toInt + carry > 127) := by
  have := p.isLt
  have := q.isLt
  rw [overflowOf_iff, byte_toInt, byte_toInt, BitVec.toNat_ofNat]
  split <;> split <;> omega

/-- V is signed overflow. -/
theorem addWithCarry_overflow_iff (a m : Byte) (c : Bool) :
    (addWithCarry a m c).overflow = true ↔
      (a.toInt + m.toInt + bit c < -128 ∨ a.toInt + m.toInt + bit c > 127) := by
  have xor : (addWithCarry a m c).overflow = overflowOf m a (addWithCarry a m c).value := rfl
  rw [xor, addWithCarry_value]
  exact overflowOf_sum_iff m a (bit_le_one c)

/-- Settles O23: the sum, its ninth bit, the two carries, which are never both out, and signed
overflow. -/
theorem adcOverflowIsSignedOverflow : Obligations.AdcOverflowIsSignedOverflow := by
  intro a m c
  refine ⟨addWithCarry_value a m c, addWithCarry_carry_iff a m c, ?_, addWithCarry_overflow_iff a m c⟩
  have := a.isLt
  have := m.isLt
  have := bit_le_one c
  omega

/-- The one's complement of a byte is minus the byte, minus 1, as a signed number. -/
theorem complement_toInt (v : Byte) : (v ^^^ 0xFF).toInt = -v.toInt - 1 := by
  have := v.isLt
  rw [byte_toInt, byte_toInt, complement_toNat]
  split <;> split <;> omega

/-- Adding the one's complement and the carry subtracts the operand and the borrow. -/
theorem subWithCarry_value (a m : Byte) (c : Bool) :
    (subWithCarry a m c).value =
      BitVec.ofInt 8 ((a.toNat : Int) - m.toNat - ((1 - bit c : Nat) : Int)) := by
  have := a.isLt
  have := m.isLt
  have := bit_le_one c
  apply BitVec.eq_of_toNat_eq
  simp only [subWithCarry, bitNat_eq_bit, BitVec.toNat_ofNat, BitVec.toNat_ofInt, complement_toNat]
  omega

/-- C is "no borrow". -/
theorem subWithCarry_carry (a m : Byte) (c : Bool) :
    (subWithCarry a m c).carry = decide (m.toNat + (1 - bit c) ≤ a.toNat) := by
  have := m.isLt
  have := bit_le_one c
  simp only [subWithCarry, bitNat_eq_bit, complement_toNat]
  rw [decide_eq_decide]
  omega

/-- V is "the signed difference left -128..127". -/
theorem subWithCarry_overflow (a m : Byte) (c : Bool) :
    (subWithCarry a m c).overflow =
      decide (a.toInt - m.toInt - ((1 - bit c : Nat) : Int) < -128 ∨
        127 < a.toInt - m.toInt - ((1 - bit c : Nat) : Int)) := by
  have := bit_le_one c
  rw [Bool.eq_iff_iff, decide_eq_true_iff]
  refine (overflowOf_sum_iff (m ^^^ 0xFF) a this).trans ?_
  rw [complement_toInt]
  omega

/-- Settles O24: SBC writes the difference, "no borrow" and signed overflow. -/
theorem sbcSubtractsOperandAndBorrow : Obligations.SbcSubtractsOperandAndBorrow := by
  intro m s source
  have completes :=
    completesReading_of_setArithmetic (i := .sbc m) (s := s) (alu := subWithCarry) rfl source
  simpa only [setArithmetic_eq, subWithCarry_value, subWithCarry_carry, subWithCarry_overflow]
    using completes

/-- An instruction that ends in `storeOperand` completes as stated on a cell's mode. -/
theorem completesStoring_of_storeOperand {i : Instr} {m : Mode} {s : State} {v : Byte}
    (runs : exec i s = storeOperand i.mnemonic m v s) (cell : m.isCell = true) :
    CompletesStoring i m s v := by
  obtain ⟨rfl, -⟩ | ⟨-, noCell, -⟩ | ⟨-, a, c, b, resolved, accesses, ram, stored⟩ :=
    storeOperand_cases i.mnemonic m v s
  · cases cell
  · exact absurd cell (by simp [noCell])
  · refine ⟨a, c, b, resolved, ?_, otherBytesKept_afterWrite accesses ram a v,
      byteStored_afterWrite accesses a v⟩
    rw [runs, stored]
    exact complete_eq_next_count false _

/-- Settles O43: the three stores differ in their register alone. -/
theorem storesWriteTheRegister : Obligations.StoresWriteTheRegister := by
  intro m s cell
  exact ⟨completesStoring_of_storeOperand rfl cell, completesStoring_of_storeOperand rfl cell,
    completesStoring_of_storeOperand rfl cell⟩

/-- Settles O44: each transfer but TXS writes its register and ends in SetZN of it. -/
theorem transfersCopyARegister : Obligations.TransfersCopyARegister := by
  intro s
  exact ⟨complete_setZN s.a { s with x := s.a }, complete_setZN s.a { s with y := s.a },
    complete_setZN s.sp { s with x := s.sp }, complete_setZN s.x { s with a := s.x },
    complete_eq_next_count false { s with sp := s.x }, complete_setZN s.y { s with a := s.y }⟩

end Sys2Proof.Proofs
end

section
/-! PROOFS. 42_shift_rotate.md and 43_branch.md: the shifts and rotates on memory and on A, and the
branches. -/

namespace Sys2Proof.Proofs

open Sys2Proof Sys2Proof.Machine Sys2Proof.Stated

/-- R151: ASL as arithmetic. -/
theorem shiftLeft_eq (v : Byte) (c : Bool) :
    shiftLeft v c = (BitVec.ofNat 8 (2 * v.toNat), decide (128 ≤ v.toNat)) := by
  rw [shiftLeft, shiftLeft_one_eq, getLsbD_seven]

/-- R152: LSR as arithmetic. -/
theorem shiftRight_eq (v : Byte) (c : Bool) :
    shiftRight v c = (BitVec.ofNat 8 (v.toNat / 2), decide (v.toNat % 2 = 1)) := by
  rw [shiftRight, shiftRight_one_eq, getLsbD_zero]

/-- A byte shifted left leaves bit 0 free for the carry. -/
theorem shiftLeft_or_carry (v : Byte) (c : Bool) :
    v <<< 1 ||| BitVec.ofNat 8 (bit c) = BitVec.ofNat 8 (2 * v.toNat + bit c) := by
  have le := bit_le_one c
  have low : bit c < 2 ^ 1 := by omega
  have joined := Nat.two_pow_add_eq_or_of_lt low (v.toNat % 128)
  have shifted : 2 * v.toNat % 2 ^ 8 = 2 ^ 1 * (v.toNat % 128) := by omega
  have carry : bit c % 2 ^ 8 = bit c := by omega
  apply BitVec.eq_of_toNat_eq
  rw [BitVec.toNat_or, shiftLeft_one_eq, BitVec.toNat_ofNat, BitVec.toNat_ofNat, BitVec.toNat_ofNat,
    shifted, carry, ← joined]
  omega

/-- A byte shifted right leaves bit 7 free for the carry. -/
theorem shiftRight_or_carry (v : Byte) (c : Bool) :
    v >>> 1 ||| BitVec.ofNat 8 (128 * bit c) = BitVec.ofNat 8 (v.toNat / 2 + 128 * bit c) := by
  have le := bit_le_one c
  have lt := v.isLt
  have low : v.toNat / 2 < 2 ^ 7 := by omega
  have joined := Nat.two_pow_add_eq_or_of_lt low (bit c)
  have shifted : v.toNat / 2 % 2 ^ 8 = v.toNat / 2 := by omega
  have carry : 128 * bit c % 2 ^ 8 = 2 ^ 7 * bit c := by omega
  apply BitVec.eq_of_toNat_eq
  rw [BitVec.toNat_or, shiftRight_one_eq, BitVec.toNat_ofNat, BitVec.toNat_ofNat, BitVec.toNat_ofNat,
    shifted, carry, Nat.or_comm, ← joined]
  omega

/-- R153: ROL as arithmetic. -/
theorem rotateLeft_eq (v : Byte) (c : Bool) :
    rotateLeft v c = (BitVec.ofNat 8 (2 * v.toNat + bit c), decide (128 ≤ v.toNat)) := by
  rw [rotateLeft, bitNat_eq_bit, shiftLeft_or_carry, getLsbD_seven]

/-- R154: ROR as arithmetic. -/
theorem rotateRight_eq (v : Byte) (c : Bool) :
    rotateRight v c = (BitVec.ofNat 8 (v.toNat / 2 + 128 * bit c), decide (v.toNat % 2 = 1)) := by
  rw [rotateRight, bitNat_eq_bit, shiftRight_or_carry, getLsbD_zero]

/-- R150: C from the bit that left, Z and N from the result, in the stated words. -/
theorem setShifted_eq (r : Byte × Bool) (s : State) :
    setShifted r s = { s with flags := zn { s.flags with c := r.2 } r.1 } :=
  setZNWritesZeroAndSign r.1 _

/-- In every mode but Accumulator a shift or rotate is a read-modify-write of a cell. -/
theorem readModifyWrite_of_ne_accumulator {m : Mode} (mn : Mnemonic) (f : Byte → Bool → Byte × Bool)
    (s : State) (notA : m ≠ .accumulator) :
    readModifyWrite mn f m s = modifyMemory mn m s (fun v => (f v s.flags.c).1)
      fun v t => setShifted (f v s.flags.c) t := by
  unfold readModifyWrite
  split
  · exact absurd rfl notA
  · rfl

/-- A shift or rotate on memory stores its result, and C, Z and N follow it. -/
theorem completesModifying_of_readModifyWrite {i : Instr} {m : Mode} {s : State}
    {f : Byte → Bool → Byte × Bool} (runs : exec i s = readModifyWrite i.mnemonic f m s)
    (cell : m.isCell = true) :
    CompletesModifying i m s (fun v => (f v s.flags.c).1) fun v =>
      zn { s.flags with c := (f v s.flags.c).2 } (f v s.flags.c).1 := by
  have notA : m ≠ .accumulator := by
    rintro rfl
    cases cell
  rw [readModifyWrite_of_ne_accumulator i.mnemonic f s notA] at runs
  exact completesModifying_of_modifyMemory runs cell fun v b => setShifted_eq (f v s.flags.c) _

/-- Settles O26: ASL and LSR are read-modify-writes. -/
theorem shiftsOnMemory : Obligations.ShiftsOnMemory := by
  intro m s cell
  have asl := completesModifying_of_readModifyWrite (i := .asl m) (s := s) (f := shiftLeft) rfl cell
  have lsr := completesModifying_of_readModifyWrite (i := .lsr m) (s := s) (f := shiftRight) rfl cell
  simp only [shiftLeft_eq] at asl
  simp only [shiftRight_eq] at lsr
  exact ⟨asl, lsr⟩

/-- Settles O27: ROL and ROR are read-modify-writes that take in the old carry. -/
theorem rotatesOnMemory : Obligations.RotatesOnMemory := by
  intro m s cell
  have rol := completesModifying_of_readModifyWrite (i := .rol m) (s := s) (f := rotateLeft) rfl cell
  have ror := completesModifying_of_readModifyWrite (i := .ror m) (s := s) (f := rotateRight) rfl cell
  simp only [rotateLeft_eq] at rol
  simp only [rotateRight_eq] at ror
  exact ⟨rol, ror⟩

/-- D5: in Accumulator mode the byte is A, and the bus is not touched. -/
theorem readModifyWrite_accumulator (mn : Mnemonic) (f : Byte → Bool → Byte × Bool) (s : State) :
    readModifyWrite mn f .accumulator s = .next { s with
      a := (f s.a s.flags.c).1
      flags := zn { s.flags with c := (f s.a s.flags.c).2 } (f s.a s.flags.c).1
      cycleOut := count s false } := by
  rw [readModifyWrite, setShifted_eq, complete_eq_next_count]
  rfl

/-- Settles O28: the four are one operation on A, with their results as arithmetic. -/
theorem shiftsOnAccumulator : Obligations.ShiftsOnAccumulator := by
  intro s gives
  have asl : exec (.asl .accumulator) s = _ := readModifyWrite_accumulator .asl shiftLeft s
  have lsr : exec (.lsr .accumulator) s = _ := readModifyWrite_accumulator .lsr shiftRight s
  have rol : exec (.rol .accumulator) s = _ := readModifyWrite_accumulator .rol rotateLeft s
  have ror : exec (.ror .accumulator) s = _ := readModifyWrite_accumulator .ror rotateRight s
  rw [shiftLeft_eq] at asl
  rw [shiftRight_eq] at lsr
  rw [rotateLeft_eq] at rol
  rw [rotateRight_eq] at ror
  exact ⟨asl, lsr, rol, ror⟩

/-- R160: a branch in Relative mode writes `pc` if its condition holds, and nothing else. -/
theorem branchIf_relative (mn : Mnemonic) (cond : Bool) (o : Byte) (s : State) :
    branchIf mn cond (.relative o) s = .next { s with
      pc := if cond then branchTarget s.pc o else s.pc
      cycleOut := count s false } := by
  cases cond
  · exact branchIf_notTaken mn o s
  · exact branchIf_taken mn o s

/-- Settles O30: each of the eight is `Branch` on its flag or the negation of it. -/
theorem branchesTestOneFlag : Obligations.BranchesTestOneFlag := by
  intro o s
  exact ⟨branchIf_relative .bcc _ o s, branchIf_relative .bcs _ o s, branchIf_relative .bne _ o s,
    branchIf_relative .beq _ o s, branchIf_relative .bpl _ o s, branchIf_relative .bmi _ o s,
    branchIf_relative .bvc _ o s, branchIf_relative .bvs _ o s⟩

end Sys2Proof.Proofs
end

section
/-! PROOFS. 10_state.md section 4, 45_jump_subroutine.md, 48_stack_system.md, 60_exceptions.md section
3: the packed flags, jumps through memory, the stack instructions, trap entry and trap return. -/

namespace Sys2Proof.Proofs

open Sys2Proof Sys2Proof.Machine Sys2Proof.Stated

/-- G4: a bit of the packed flags is read off the sum they are packed to. -/
theorem packP_getLsbD {b4 : Bool} {f : Flags} {k : Nat} {x : Bool} (lt : k < 8)
    (digit : (128 * bit f.n + 64 * bit f.v + 32 + 16 * bit b4 + 8 * bit f.d + 4 * bit f.i +
      2 * bit f.z + bit f.c) / 2 ^ k % 2 = bit x) : (packP b4 f).getLsbD k = x := by
  rw [packP, bitNat_eq_bit, BitVec.getLsbD_ofNat, decide_eq_true lt, Bool.true_and,
    Nat.testBit_eq_decide_div_mod_eq, digit]
  cases x <;> rfl

/-- D17: UnpackP undoes PackP but for B. -/
theorem unpackP_packP (b4 : Bool) (f g : Flags) : unpackP (packP b4 f) g = { f with b := g.b } := by
  have hn := bit_le_one f.n
  have hv := bit_le_one f.v
  have h4 := bit_le_one b4
  have hd := bit_le_one f.d
  have hi := bit_le_one f.i
  have hz := bit_le_one f.z
  have hc := bit_le_one f.c
  have n : (packP b4 f).getLsbD 7 = f.n := packP_getLsbD (by decide) (by omega)
  have v : (packP b4 f).getLsbD 6 = f.v := packP_getLsbD (by decide) (by omega)
  have d : (packP b4 f).getLsbD 3 = f.d := packP_getLsbD (by decide) (by omega)
  have i : (packP b4 f).getLsbD 2 = f.i := packP_getLsbD (by decide) (by omega)
  have z : (packP b4 f).getLsbD 1 = f.z := packP_getLsbD (by decide) (by omega)
  have c : (packP b4 f).getLsbD 0 = f.c := packP_getLsbD (by decide) (by omega)
  rw [unpackP, n, v, d, i, z, c]

/-- Settles O2: the packed byte is the stated sum, and unpacking is read off its bits. -/
theorem packedStatusLayout : Obligations.PackedStatusLayout := by
  intro f g b4 v
  refine ⟨congrArg (BitVec.ofNat 8) ?_, rfl, unpackP_packP b4 f g⟩
  simp only [bitNat_eq_bit]
  omega

/-- Settles O32: JMP Indirect is a word read at its operand, then the write of `pc`. -/
theorem jmpIndirectDereferences : Obligations.JmpIndirectDereferences := by
  intro w s lo b1 hi
  exact ⟨complete_eq_next_count false _, otherBytesKept_of_accesses (readWord_accesses w s) rfl⟩

theorem sub_one_sub_one (sp : Byte) : sp - 1 - 1 = sp - 2 := by bv_omega

theorem sub_two_sub_one (sp : Byte) : sp - 2 - 1 = sp - 3 := by bv_omega

theorem add_one_add_one (sp : Byte) : sp + 1 + 1 = sp + 2 := BitVec.add_assoc sp 1 1

theorem add_one_add_two (sp : Byte) : sp + 1 + 2 = sp + 3 := BitVec.add_assoc sp 1 2

/-- A word is pushed high byte first, at the two stack bytes from S down. -/
theorem pushWord_eq (w : Word) (s : State) :
    pushWord w s = { s with
      sp := s.sp - 2
      bus := (s.bus.afterWrite (stackByte s.sp) (hiByte w)).afterWrite (stackByte (s.sp - 1))
        (loByte w) } := by
  rw [pushWord, push_eq, push_eq, sub_one_sub_one]

/-- A word is pulled low byte first, from the two stack bytes above S. -/
theorem pullWord_eq (s : State) :
    let lo := s.bus.answer (stackByte (s.sp + 1))
    let b1 := s.bus.afterRead (stackByte (s.sp + 1)) lo
    let hi := b1.answer (stackByte (s.sp + 2))
    pullWord s =
      ⟨wordOf hi lo, { s with sp := s.sp + 2, bus := b1.afterRead (stackByte (s.sp + 2)) hi }⟩ := by
  simp only [pullWord, pull_eq, add_one_add_one]

/-- R187: JSR Absolute is a push of the word before `pc`, then the write of `pc`. -/
theorem exec_jsr_absolute (w : Word) (s : State) :
    exec (.jsr (.absolute w)) s =
      .next { pushWord (s.pc - 1) s with pc := w, cycleOut := count s false } :=
  complete_eq_next_count false { pushWord (s.pc - 1) s with pc := w }

/-- R187: JSR in any other mode faults. -/
theorem execJsr_fault {m : Mode} (s : State) (h : m.kind ≠ .absolute) :
    execJsr m s = .fault (.invalidAddressingMode .jsr m) := by
  cases m
  case absolute => exact absurd rfl h
  all_goals rfl

theorem sub_one_toNat (pc : Word) : (pc - 1).toNat = (pc.toNat + 65535) % 65536 := by bv_omega

/-- D4: the two bytes JSR pushes, as parts of the number before `pc`. -/
theorem hiByte_sub_one (pc : Word) :
    hiByte (pc - 1) = BitVec.ofNat 8 ((pc.toNat + 65535) % 65536 / 256) := by
  rw [hiByte, sub_one_toNat]

theorem loByte_sub_one (pc : Word) :
    loByte (pc - 1) = BitVec.ofNat 8 ((pc.toNat + 65535) % 65536 % 256) := by
  rw [loByte_eq_ofNat_mod, sub_one_toNat]

/-- Two writes keep every byte but those at their two addresses. -/
theorem otherBytesKept_two_writes (b : Bus) (a1 a2 : Word) (v1 v2 : Byte) :
    OtherBytesKept b ((b.afterWrite a1 v1).afterWrite a2 v2) fun k => k = a1 ∨ k = a2 := by
  refine otherBytesKept_of_ramRead rfl fun k other => ?_
  obtain ⟨ne1, ne2⟩ := not_or.mp other
  rw [afterWrite_ramRead_of_ne _ v2 ne2, afterWrite_ramRead_of_ne _ v1 ne1]

/-- Settles O33: JSR is the push of a word and a jump; its frame is that of two writes. -/
theorem jsrPushesItsLastAddress : Obligations.JsrPushesItsLastAddress := by
  intro w m s ret b
  refine ⟨?_, otherBytesKept_two_writes _ _ _ _ _, execJsr_fault s⟩
  rw [exec_jsr_absolute, pushWord_eq, hiByte_sub_one, loByte_sub_one]

/-- R188: RTS is a pull of a word, and `pc` is the word after it. -/
theorem exec_rts (s : State) :
    exec .rts s = .next { (pullWord s).state with
      pc := (pullWord s).value + 1, cycleOut := count s false } :=
  complete_eq_next_count false { (pullWord s).state with pc := (pullWord s).value + 1 }

/-- Settles O34: what the pulled word is, plus 1; the reads leave every byte. -/
theorem rtsPullsAndAddsOne : Obligations.RtsPullsAndAddsOne := by
  intro s lo b1 hi
  have next : BitVec.ofNat 16 (hi.toNat * 256 + lo.toNat + 1) = wordOf hi lo + 1 :=
    BitVec.ofNat_add _ 1
  refine ⟨?_, otherBytesKept_of_ramRead rfl fun _ _ => rfl⟩
  rw [exec_rts, pullWord_eq, next]

theorem stackByte_ne {p q : Byte} (h : p ≠ q) : stackByte p ≠ stackByte q :=
  fun same => h (stackByte_inj.mp same)

/-- The answers of two buses with the same flat RAM and windows agree outside the windows. -/
theorem answer_congr {b c : Bus} {k : Word} (ram : c.ram = b.ram) (devices : c.devices = b.devices)
    (flat : b.isDevice k = false) : c.answer k = b.answer k := by
  have flat' : c.isDevice k = false := (isDevice_of_devices devices k).trans flat
  rw [answer_of_not_device flat, answer_of_not_device flat', ram]

/-- After a word is pushed on flat RAM its high byte lies at the old S and its low byte below. -/
theorem pushWord_answers {s : State} (w : Word) (canonical : Memory.wf s.bus.ram = true)
    (flatHigh : s.bus.isDevice (stackByte s.sp) = false)
    (flatLow : s.bus.isDevice (stackByte (s.sp - 1)) = false) :
    (pushWord w s).bus.answer (stackByte s.sp) = hiByte w ∧
      (pushWord w s).bus.answer (stackByte (s.sp - 1)) = loByte w := by
  have canonical' := afterWrite_wf canonical (stackByte s.sp) (hiByte w)
  have apart : stackByte s.sp ≠ stackByte (s.sp - 1) := stackByte_ne (by bv_omega)
  rw [pushWord_eq]
  dsimp only
  rw [afterWrite_answer canonical' flatLow flatHigh, afterWrite_answer canonical' flatLow flatLow,
    afterWrite_answer canonical flatHigh flatHigh, if_neg apart, if_pos rfl, if_pos rfl]
  exact ⟨rfl, rfl⟩

/-- A word is pulled back from wherever its two bytes lie in flat RAM above S. -/
theorem pullWord_value_of_answers {u : State} {sp : Byte} {w : Word} (below : u.sp = sp - 2)
    (flatHigh : u.bus.isDevice (stackByte sp) = false)
    (high : u.bus.answer (stackByte sp) = hiByte w)
    (low : u.bus.answer (stackByte (sp - 1)) = loByte w) : (pullWord u).value = w := by
  have lowAt : u.sp + 1 = sp - 1 := by rw [below]; bv_omega
  have highAt : u.sp + 2 = sp := by rw [below, BitVec.sub_add_cancel]
  rw [pullWord_eq, lowAt, highAt]
  dsimp only
  rw [afterRead_answer flatHigh, high, low, wordOf_hiByte_loByte]

/-- Settles O35: RTS pulls the word JSR pushed, which is the address before the next instruction. -/
theorem rtsReturnsPastItsJsr : Obligations.RtsReturnsPastItsJsr := by
  intro w s t u canonical flatHigh flatLow called sameSp sameRam sameDevices
  rw [exec_jsr_absolute] at called
  cases called
  obtain ⟨high, low⟩ := pushWord_answers (s.pc - 1) canonical flatHigh flatLow
  have below : u.sp = s.sp - 2 := by rw [sameSp, pushWord_sp, sub_one_sub_one]
  have pulled : (pullWord u).value = s.pc - 1 :=
    pullWord_value_of_answers below
      ((isDevice_of_devices sameDevices _).trans flatHigh)
      ((answer_congr sameRam sameDevices flatHigh).trans high)
      ((answer_congr sameRam sameDevices flatLow).trans low)
  refine ⟨_, exec_rts u, ?_, ?_, sameRam⟩
  · rw [pulled]
    exact BitVec.sub_add_cancel s.pc 1
  · rw [pullWord_eq, below]
    exact BitVec.sub_add_cancel s.sp 2

/-- Settles O45: each is one push. -/
theorem pushesStoreOneByte : Obligations.PushesStoreOneByte := by
  intro s done
  have pushes (v : Byte) : complete false (push v s) = done v := by
    rw [push_eq, complete_eq_next_count]
    rfl
  exact ⟨pushes s.a, pushes (packP true s.flags), fun v =>
    ⟨otherBytesKept_afterWrite .none rfl _ v, byteStored_afterWrite .none _ v⟩⟩

/-- Settles O46: each is one pull, then SetZN with A, or the unpacked flags. -/
theorem pullsLoadOneByte : Obligations.PullsLoadOneByte := by
  intro s v b
  have pla : exec .pla s = complete false (setZN (pull s).value
    { (pull s).state with a := (pull s).value }) := rfl
  have plp : exec .plp s = complete false { (pull s).state with
    flags := unpackP (pull s).value (pull s).state.flags } := rfl
  rw [pla, plp, pull_eq, complete_setZN, complete_eq_next_count]
  exact ⟨rfl, rfl, otherBytesKept_of_accesses (.read _ .none) rfl⟩

/-- R255: trap entry pushes the return address and the packed flags, sets I and loads the vector. -/
theorem enterTrap_eq (ret : Word) (s : State) :
    let b3 := ((s.bus.afterWrite (stackByte s.sp) (hiByte ret)).afterWrite (stackByte (s.sp - 1))
      (loByte ret)).afterWrite (stackByte (s.sp - 2)) (packP true s.flags)
    let lo := b3.answer 0xFFFE
    let b4 := b3.afterRead 0xFFFE lo
    let hi := b4.answer 0xFFFF
    enterTrap ret s = { s with
      pc := wordOf hi lo
      sp := s.sp - 3
      flags := { s.flags with i := true }
      bus := b4.afterRead 0xFFFF hi } := by
  rw [← sub_two_sub_one]
  simp only [enterTrap, pushWord_eq, push_eq]
  rfl

/-- D18: the two bytes of the return address BRK pushes, as parts of the number after `pc`. -/
theorem hiByte_add_one (pc : Word) :
    hiByte (pc + 1) = BitVec.ofNat 8 ((pc.toNat + 1) % 65536 / 256) := by
  rw [hiByte, BitVec.toNat_add]
  rfl

theorem loByte_add_one (pc : Word) :
    loByte (pc + 1) = BitVec.ofNat 8 ((pc.toNat + 1) % 65536 % 256) := by
  rw [loByte_eq_ofNat_mod, BitVec.toNat_add]
  rfl

/-- R235: BRK is a trap entry that returns the base count. -/
theorem exec_brk (s : State) :
    exec .brk s = .next { enterTrap (s.pc + 1) s with cycleOut := count s false } :=
  complete_eq_next_count_of_latch (enterTrap_ir (s.pc + 1) s) false

/-- Settles O47: BRK is the trap entry; the vector's reads leave every byte, the pushes all but
three. -/
theorem brkTakesTheTrap : Obligations.BrkTakesTheTrap := by
  intro s ret b3 lo b4 hi
  refine ⟨?_, otherBytesKept_of_ramRead rfl fun k other => ?_⟩
  · rw [exec_brk, enterTrap_eq, hiByte_add_one, loByte_add_one]
    rfl
  · obtain ⟨ne1, ne2, ne3⟩ : k ≠ _ ∧ k ≠ _ ∧ k ≠ _ := by simpa only [not_or] using other
    rw [afterRead_ram, afterRead_ram, afterWrite_ramRead_of_ne _ _ ne3,
      afterWrite_ramRead_of_ne _ _ ne2, afterWrite_ramRead_of_ne _ _ ne1]

/-- R236: RTI is a trap return that returns the base count. -/
theorem exec_rti (s : State) :
    exec .rti s = .next { returnFromTrap s with cycleOut := count s false } :=
  complete_eq_next_count_of_latch (returnFromTrap_ir s) false

/-- Settles O48: RTI pulls the flags, then a word from one byte further up. -/
theorem rtiPullsFlagsAndPc : Obligations.RtiPullsFlagsAndPc := by
  intro s p b1 lo b2 hi
  refine ⟨?_, otherBytesKept_of_ramRead rfl fun _ _ => rfl⟩
  rw [exec_rti]
  simp only [returnFromTrap, pull_eq, pullWord_eq, add_one_add_one, add_one_add_two]
  rfl

/-- Loading the vector leaves flat RAM as the three pushes left it. -/
theorem enterTrap_ram (ret : Word) (s : State) :
    (enterTrap ret s).bus.ram = (push (packP true s.flags) (pushWord ret s)).bus.ram := by
  rw [enterTrap, pushWord_flags]
  rfl

/-- After a trap entry the three stacked bytes lie in flat RAM, the flags at the lowest. -/
theorem enterTrap_answers {s : State} (ret : Word) (canonical : Memory.wf s.bus.ram = true)
    (flat0 : s.bus.isDevice (stackByte s.sp) = false)
    (flat1 : s.bus.isDevice (stackByte (s.sp - 1)) = false)
    (flat2 : s.bus.isDevice (stackByte (s.sp - 2)) = false) :
    (enterTrap ret s).bus.answer (stackByte s.sp) = hiByte ret ∧
      (enterTrap ret s).bus.answer (stackByte (s.sp - 1)) = loByte ret ∧
      (enterTrap ret s).bus.answer (stackByte (s.sp - 2)) = packP true s.flags := by
  obtain ⟨high, low⟩ := pushWord_answers ret canonical flat0 flat1
  have canonical' := pushWord_wf canonical ret
  have pushes := (pushWord_accesses ret s).trans (push_accesses (packP true s.flags) (pushWord ret s))
  have stored : (push (packP true s.flags) (pushWord ret s)).bus =
      (pushWord ret s).bus.afterWrite (stackByte (s.sp - 2)) (packP true s.flags) := by
    rw [push_bus, stackAddr_eq_stackByte, pushWord_sp, sub_one_sub_one]
  have kept {k : Word} (flat : s.bus.isDevice k = false) : (enterTrap ret s).bus.answer k =
      if k = stackByte (s.sp - 2) then packP true s.flags else (pushWord ret s).bus.answer k := by
    have flat' := ((pushWord_accesses ret s).isDevice k).trans flat
    have flat2' := ((pushWord_accesses ret s).isDevice _).trans flat2
    rw [← afterWrite_answer canonical' flat2' flat', ← stored]
    exact answer_congr (enterTrap_ram ret s)
      ((enterTrap_accesses ret s).devices.trans pushes.devices.symm) ((pushes.isDevice k).trans flat)
  have apart0 : stackByte s.sp ≠ stackByte (s.sp - 2) := stackByte_ne (by bv_omega)
  have apart1 : stackByte (s.sp - 1) ≠ stackByte (s.sp - 2) := stackByte_ne (by bv_omega)
  rw [kept flat0, kept flat1, kept flat2, if_neg apart0, if_neg apart1, if_pos rfl]
  exact ⟨high, low, rfl⟩

/-- Settles O49: RTI pulls the flags and the word that BRK pushed. -/
theorem rtiUndoesItsBrk : Obligations.RtiUndoesItsBrk := by
  intro s t u canonical flat0 flat1 flat2 trapped sameSp sameB sameRam sameDevices
  rw [exec_brk] at trapped
  cases trapped
  have accesses := enterTrap_accesses (s.pc + 1) s
  have flatIn {k : Word} (flat : s.bus.isDevice k = false) :
      (enterTrap (s.pc + 1) s).bus.isDevice k = false := (accesses.isDevice k).trans flat
  have kept {k : Word} (flat : s.bus.isDevice k = false) :
      u.bus.answer k = (enterTrap (s.pc + 1) s).bus.answer k :=
    answer_congr sameRam sameDevices (flatIn flat)
  obtain ⟨high, low, flags⟩ := enterTrap_answers (s.pc + 1) canonical flat0 flat1 flat2
  have flagsAt : u.sp + 1 = s.sp - 2 := by
    rw [sameSp, enterTrap_sp, BitVec.sub_add_cancel, sub_one_sub_one]
  have pulledFlags : (pull u).value = packP true s.flags := by
    rw [pull_value, flagsAt, kept flat2, flags]
  have flatU : u.bus.isDevice (stackByte s.sp) = false :=
    (isDevice_of_devices sameDevices _).trans (flatIn flat0)
  have highU : (pull u).state.bus.answer (stackByte s.sp) = hiByte (s.pc + 1) := by
    rw [pull_state]
    exact (afterRead_answer flatU _ _).trans ((kept flat0).trans high)
  have lowU : (pull u).state.bus.answer (stackByte (s.sp - 1)) = loByte (s.pc + 1) := by
    rw [pull_state]
    exact (afterRead_answer ((isDevice_of_devices sameDevices _).trans (flatIn flat1)) _ _).trans
      ((kept flat1).trans low)
  refine ⟨_, exec_rti u, ?_, ?_, ?_⟩
  · have sameFlag : u.flags.b = s.flags.b := by rw [sameB, enterTrap_flags]
    rw [returnFromTrap_flags, pulledFlags, unpackP_packP, sameFlag]
  · rw [returnFromTrap_sp, flagsAt, add_one_add_one, BitVec.sub_add_cancel]
  · exact pullWord_value_of_answers (u := { (pull u).state with flags := _ }) flagsAt flatU highU lowU

end Sys2Proof.Proofs
end

section
/-! PROOFS. 60_exceptions.md section 1, 70_reset_and_hazards.md section 5: where the handlers complete,
and the cycles they return. -/

namespace Sys2Proof.Proofs

open Sys2Proof Sys2Proof.Machine Sys2Proof.Stated

/-- Execute completes in some state with some count, or faults. -/
def CompletesIff (served : Bool) (o : Out) : Prop :=
  (served = true ∧ ∃ crossed t, o = complete crossed t) ∨ (served = false ∧ ∃ f, o = .fault f)

theorem storeOperand_completesIff (mn : Mnemonic) (m : Mode) (v : Byte) (s : State) :
    CompletesIff (m.isCell || m == .accumulator) (storeOperand mn m v s) := by
  obtain ⟨rfl, h⟩ | ⟨notA, noCell, h⟩ | ⟨cell, a, c, b, -, -, -, h⟩ := storeOperand_cases mn m v s
  · exact .inl ⟨rfl, false, _, h⟩
  · exact .inr ⟨by simp [notA, noCell], _, h⟩
  · exact .inl ⟨by simp [cell], false, _, h⟩

theorem modifyMemory_completesIff (mn : Mnemonic) (m : Mode) (s : State) (f : Byte → Byte)
    (k : Byte → State → State) : CompletesIff m.isCell (modifyMemory mn m s f k) := by
  obtain ⟨noCell, h⟩ | ⟨cell, a, c, b, -, -, -, h⟩ := modifyMemory_cases mn m s f k
  · exact .inr ⟨noCell, _, h⟩
  · exact .inl ⟨cell, c, _, h⟩

theorem readModifyWrite_completesIff (mn : Mnemonic) (f : Byte → Bool → Byte × Bool) (m : Mode)
    (s : State) : CompletesIff (m.isCell || m == .accumulator) (readModifyWrite mn f m s) := by
  by_cases acc : m = .accumulator
  · subst acc
    exact .inl ⟨rfl, false, _, rfl⟩
  · have onlyCell : (m.isCell || m == .accumulator) = m.isCell := by simp [acc]
    rw [onlyCell, readModifyWrite_of_ne_accumulator mn f s acc]
    exact modifyMemory_completesIff _ _ _ _ _

/-- A handler completes exactly in the modes its shape serves. -/
theorem run_completesIff (h : Handler) (mn : Mnemonic) (m : Mode) (s : State) :
    CompletesIff (h.serves m) (h.run mn m s) := by
  cases h with
  | plain k => exact .inl ⟨rfl, false, k s, rfl⟩
  | reading k =>
    obtain ⟨notSource, h⟩ | ⟨source, v, c, b, -, -, -, h⟩ := withOperand_cases mn m s k
    · exact .inr ⟨notSource, _, h⟩
    · exact .inl ⟨source, c, _, h⟩
  | storing r => exact storeOperand_completesIff mn m (r s) s
  | modifying f => exact modifyMemory_completesIff mn m s f fun v t => setZN (f v) t
  | shifting f => exact readModifyWrite_completesIff mn f m s
  | branching cond =>
    cases m
    case relative => exact .inl ⟨rfl, false, _, rfl⟩
    all_goals exact .inr ⟨rfl, _, rfl⟩
  | jumping =>
    cases m
    case absolute | indirect => exact .inl ⟨rfl, false, _, rfl⟩
    all_goals exact .inr ⟨rfl, _, rfl⟩
  | calling =>
    cases m
    case absolute => exact .inl ⟨rfl, false, _, rfl⟩
    all_goals exact .inr ⟨rfl, _, rfl⟩

theorem exec_completesIff (i : Instr) (s : State) : CompletesIff (serviced i) (exec i s) := by
  rw [serviced_eq_serves, exec_eq_run]
  exact run_completesIff _ _ _ _

theorem eq_accumulator_iff_kind (m : Mode) : m = .accumulator ↔ m.kind = .accumulator := by
  cases m <;> simp [Mode.kind]

/-- Which modes a handler serves does not depend on their operands. -/
theorem serves_eq_of_kind (h : Handler) (m : Mode) (lo hi : Byte) :
    h.serves (m.kind.withOperand lo hi) = h.serves m := by
  have cell : (m.kind.withOperand lo hi).isCell = m.isCell := by cases m <;> rfl
  have source : (m.kind.withOperand lo hi).isSource = m.isSource := by cases m <;> rfl
  have acc : (m.kind.withOperand lo hi == .accumulator) = (m == .accumulator) := by
    rw [Bool.eq_iff_iff, beq_iff_eq, beq_iff_eq, eq_accumulator_iff_kind, eq_accumulator_iff_kind,
      withOperand_kind]
  cases h <;> simp only [Handler.serves, cell, source, acc, withOperand_kind]

/-- Every variant a mnemonic occurs with is one its handler serves. -/
theorem modes_served (mn : Mnemonic) :
    ∀ k ∈ mn.modes, (handlerOf mn).serves (k.withOperand 0 0) = true := by
  cases mn <;> decide

/-- R253: every instruction fetch can produce is serviced. -/
theorem serviced_of_wellFormed {i : Instr} (h : i.wellFormed = true) : serviced i = true := by
  obtain ⟨occurs, -⟩ := Bool.and_eq_true_iff.mp h
  rw [serviced_eq_serves, ← serves_eq_of_kind _ _ 0 0]
  exact modes_served i.mnemonic i.mode.kind (List.contains_iff_mem.mp occurs)

theorem exec_next_of_serviced {i : Instr} (h : serviced i = true) (s : State) :
    ∃ t, exec i s = .next t := by
  obtain ⟨-, c, t, completed⟩ | ⟨notServed, -⟩ := exec_completesIff i s
  · exact ⟨_, completed⟩
  · exact absurd h (by simp [notServed])

/-- R251: where a handler does not complete, its fault names the mnemonic and the mode. -/
theorem exec_fault_of_not_serviced {i : Instr} (h : serviced i = false) (s : State) :
    exec i s = .fault (.invalidAddressingMode i.mnemonic i.mode) := by
  obtain ⟨served, -⟩ | ⟨-, f, faulted⟩ := exec_completesIff i s
  · exact absurd served (by simp [h])
  · obtain ⟨t, ended, -⟩ | ended := exec_ends i s
    · cases faulted.symm.trans ended
    · exact ended

/-- Settles O50: each handler completes exactly in the modes it serves, and those a mnemonic occurs
with are among them. -/
theorem execFaultsExactlyOnUnservicedModes : Obligations.ExecFaultsExactlyOnUnservicedModes := by
  intro i s
  exact ⟨fun served => exec_next_of_serviced served s,
    fun notServed => exec_fault_of_not_serviced notServed s, serviced_of_wellFormed⟩

/-- R253: what fetch produces is serviced, so no step stops. -/
theorem step_safe (s : State) : Safety.StepSafe s := by
  have wellFormed : (fetch s).value.wellFormed = true := instrOf_wellFormed _ _ _
  exact exec_next_of_serviced (serviced_of_wellFormed wellFormed) _

theorem run_succ_of_step {s t : State} (stepped : step s = .next t) (k : Nat) :
    Host.Core.run core (k + 1) s = Host.Core.run core k t := by
  have stepped : core.step s = .next t := stepped
  simp only [Host.Core.run, stepped]

/-- Settles O51: by induction on the number of steps, none of which stops. -/
theorem noRunStops : Obligations.NoRunStops := by
  intro k
  induction k with
  | zero => exact fun s => ⟨s, rfl⟩
  | succ k ih =>
    intro s
    obtain ⟨t, stepped⟩ := step_safe s
    rw [Safety.RunSafe, run_succ_of_step stepped]
    exact ih t

/-- The count execute returns is `Cycles` of the latch it leaves. -/
theorem exec_cycleOut {i : Instr} {s t : State} (executed : exec i s = .next t) :
    ∃ crossed, t.cycleOut = count t crossed := by
  obtain ⟨-, c, u, completed⟩ | ⟨-, f, faulted⟩ := exec_completesIff i s
  · rw [completed, complete_eq_next_count] at executed
    cases executed
    exact ⟨c, rfl⟩
  · cases faulted.symm.trans executed

theorem findRow_mem {rows : List OpcodeRow} {n : Nat} {r : OpcodeRow} (h : findRow rows n = some r) :
    r ∈ rows := by
  induction rows with
  | nil => cases h
  | cons row rest ih =>
    rw [findRow] at h
    cases found : Nat.beq row.opcode.toNat n with
    | true =>
      rw [found, cond_true] at h
      cases h
      exact List.mem_cons_self
    | false =>
      rw [found, cond_false] at h
      exact List.mem_cons_of_mem row (ih h)

/-- R90: the base count of a defined row is at least 1, and at most 7 with the extra cycle it allows. -/
theorem opcodeTable_figures : ∀ r ∈ opcodeTable,
    0 < r.cycles ∧ r.cycles ≤ 7 ∧ (r.pageCross = true → r.cycles + 1 ≤ 7) := by
  decide +kernel

/-- The count of a row is at most 7, and 0 exactly at an undefined byte, which allows no extra cycle. -/
theorem rowOf_figures (b : Byte) (crossed : Bool) :
    let n := if (rowOf b).pageCross && crossed then (rowOf b).cycles + 1 else (rowOf b).cycles
    n ≤ 7 ∧ (n = 0 ↔ isUndefinedOpcode b = true) := by
  cases row : definedRow b with
  | none =>
    have undef := undefined_of_definedRow row
    rw [rowOf_of_undefined undef]
    exact ⟨Nat.zero_le 7, fun _ => undef, fun _ => rfl⟩
  | some r =>
    obtain ⟨pos, base, extra⟩ := opcodeTable_figures r (findRow_mem row)
    have defined : ¬ isUndefinedOpcode b = true := fun undef => by
      cases (definedRow_of_undefined undef).symm.trans row
    rw [rowOf_of_definedRow row]
    dsimp only
    split
    · next both =>
      have allowed := extra (Bool.and_eq_true_iff.mp both).1
      exact ⟨allowed, fun zero => absurd zero (by omega), fun undef => absurd undef defined⟩
    · exact ⟨base, fun zero => absurd zero (by omega), fun undef => absurd undef defined⟩

/-- Settles O59: execute returns `Cycles` of the latch fetch loaded from the row. -/
theorem stepReturnsTheRowsCycles : Obligations.StepReturnsTheRowsCycles := by
  intro s t stepped
  obtain ⟨crossed, figure⟩ := exec_cycleOut stepped
  obtain ⟨-, -, latch⟩ := step_kept stepped
  obtain ⟨b, fetched, -⟩ := fetch_state s
  rw [count, latch, fetched] at figure
  obtain ⟨le, zero⟩ := rowOf_figures (s.peek s.pc) crossed
  refine ⟨_, figure, le, zero, ?_⟩
  dsimp only
  split
  · next extra => exact .inr ⟨(Bool.and_eq_true_iff.mp extra).1, rfl⟩
  · exact .inl rfl

end Sys2Proof.Proofs
end

section
/-! PROOFS. 10_state.md R20 and R26, 20_memory.md R56: what each instruction writes. -/

namespace Sys2Proof.Proofs

open Sys2Proof Sys2Proof.Machine Sys2Proof.Stated

/-- The registers and flags an execute can write. -/
inductive Place where
  | pc | sp | a | x | y
  | flag (f : Flag)

/-- The place holds the same in both states. -/
def Place.Kept (s t : State) : Place → Prop
  | .pc => t.pc = s.pc
  | .sp => t.sp = s.sp
  | .a => t.a = s.a
  | .x => t.x = s.x
  | .y => t.y = s.y
  | .flag f => f.get t.flags = f.get s.flags

/-- The "written by" columns of R20 and R26; the shifts write A in Accumulator mode only. -/
def Place.writers : Place → List Mnemonic
  | .pc => [.bcc, .bcs, .beq, .bmi, .bne, .bpl, .bvc, .bvs, .jmp, .jsr, .rts, .rti, .brk]
  | .sp => [.jsr, .rts, .pha, .php, .pla, .plp, .brk, .rti, .txs]
  | .a => [.adc, .sbc, .and, .ora, .eor, .lda, .pla, .txa, .tya]
  | .x => [.inx, .dex, .ldx, .tax, .tsx]
  | .y => [.iny, .dey, .ldy, .tay]
  | .flag f => f.writers

/-- What a handler must do for an execute in mode `m` to keep the place. -/
def Handler.Keeps (p : Place) (m : Mode) : Handler → Prop
  | .plain k => ∀ s, p.Kept s (k s)
  | .reading k => ∀ v s, p.Kept s (k v s)
  | .storing r => m = .accumulator → ∀ s, p.Kept s { s with a := r s }
  | .modifying _ => ∀ v s, p.Kept s (setZN v s)
  | .shifting _ => (∀ r s, p.Kept s (setShifted r s)) ∧
      (m = .accumulator → ∀ v s, p.Kept s { s with a := v })
  | .branching _ | .jumping => ∀ w s, p.Kept s { s with pc := w }
  | .calling => ∀ w v s, p.Kept s { s with pc := w, sp := v }

theorem kept_bus_iff (p : Place) (s t : State) (b : Bus) :
    p.Kept { s with bus := b } t ↔ p.Kept s t := by
  cases p <;> exact Iff.rfl

theorem kept_withBus_iff (p : Place) (s t : State) (b : Bus) :
    p.Kept s { t with bus := b } ↔ p.Kept s t := by
  cases p <;> exact Iff.rfl

theorem kept_withCycleOut_iff (p : Place) (s t : State) (n : Option Nat) :
    p.Kept s { t with cycleOut := n } ↔ p.Kept s t := by
  cases p <;> exact Iff.rfl

theorem kept_refl (p : Place) (s : State) : p.Kept s s := by
  cases p <;> rfl

/-- An execute that completes keeps what the state it completes with keeps. -/
theorem kept_of_complete {p : Place} {s t u : State} {crossed : Bool}
    (ended : complete crossed u = .next t) (h : p.Kept s u) : p.Kept s t := by
  cases ended
  exact (kept_withCycleOut_iff p s u _).mpr h

theorem kept_trans {p : Place} {s t u : State} (h : p.Kept s t) (h' : p.Kept t u) : p.Kept s u := by
  cases p <;> exact Eq.trans h' h

/-- A handler keeps the places its shape's changes keep. -/
theorem run_kept {h : Handler} {p : Place} {mn : Mnemonic} {m : Mode} {s t : State}
    (keeps : h.Keeps p m) (ended : h.run mn m s = .next t) : p.Kept s t := by
  cases h with
  | plain k => exact kept_of_complete ended (keeps s)
  | reading k =>
    obtain ⟨-, fault⟩ | ⟨-, v, c, b, -, -, -, completed⟩ := withOperand_cases mn m s k
    · cases fault.symm.trans ended
    · exact kept_of_complete (completed.symm.trans ended) ((kept_bus_iff p s _ b).mp (keeps v _))
  | storing r =>
    obtain ⟨acc, completed⟩ | ⟨-, -, fault⟩ | ⟨-, a, c, b, -, -, -, completed⟩ :=
      storeOperand_cases mn m (r s) s
    · exact kept_of_complete (completed.symm.trans ended) (keeps acc s)
    · cases fault.symm.trans ended
    · exact kept_of_complete (completed.symm.trans ended)
        ((kept_withBus_iff p s s _).mpr (kept_refl p s))
  | modifying f =>
    obtain ⟨-, fault⟩ | ⟨-, a, c, b, -, -, -, completed⟩ :=
      modifyMemory_cases mn m s f fun v t => setZN (f v) t
    · cases fault.symm.trans ended
    · exact kept_of_complete (completed.symm.trans ended) ((kept_bus_iff p s _ _).mp (keeps _ _))
  | shifting f =>
    obtain ⟨shifted, inA⟩ := keeps
    by_cases acc : m = .accumulator
    · subst acc
      exact kept_of_complete ended (kept_trans (inA rfl _ s) (shifted _ _))
    · rw [Handler.run, readModifyWrite_of_ne_accumulator mn f s acc] at ended
      obtain ⟨-, fault⟩ | ⟨-, a, c, b, -, -, -, completed⟩ := modifyMemory_cases mn m s
        (fun v => (f v s.flags.c).1) fun v t => setShifted (f v s.flags.c) t
      · cases fault.symm.trans ended
      · exact kept_of_complete (completed.symm.trans ended) ((kept_bus_iff p s _ _).mp (shifted _ _))
  | branching cond =>
    cases m
    case relative o =>
      refine kept_of_complete ended ?_
      split
      · exact keeps _ s
      · exact kept_refl p s
    all_goals cases ended
  | jumping =>
    cases m
    case absolute w => exact kept_of_complete ended (keeps w s)
    case indirect w =>
      exact kept_of_complete ended ((kept_withBus_iff p s _ _).mpr (keeps (readWord w s).value s))
    all_goals cases ended
  | calling =>
    cases m
    case absolute w =>
      refine kept_of_complete ended ?_
      rw [pushWord_eq]
      exact (kept_withBus_iff p s _ _).mpr (keeps w _ s)
    all_goals cases ended

/-- A place is not the one a mnemonic writes, if its column does not list the mnemonic. -/
theorem ne_of_not_writer {mn : Mnemonic} {p q : Place} (notWriter : mn ∉ p.writers)
    (writer : mn ∈ q.writers) : p ≠ q := by
  rintro rfl
  exact notWriter writer

theorem kept_withPc {p : Place} (h : p ≠ .pc) (s : State) (w : Word) :
    p.Kept s { s with pc := w } := by
  cases p <;> first | rfl | exact absurd rfl h

theorem kept_withSp {p : Place} (h : p ≠ .sp) (s : State) (v : Byte) :
    p.Kept s { s with sp := v } := by
  cases p <;> first | rfl | exact absurd rfl h

theorem kept_withA {p : Place} (h : p ≠ .a) (s : State) (v : Byte) : p.Kept s { s with a := v } := by
  cases p <;> first | rfl | exact absurd rfl h

theorem kept_setShifted {p : Place} (hc : p ≠ .flag .c) (hz : p ≠ .flag .z) (hn : p ≠ .flag .n)
    (r : Byte × Bool) (s : State) : p.Kept s (setShifted r s) := by
  rcases p with _ | _ | _ | _ | _ | (_ | _ | _ | _ | _ | _ | _)
  case flag.c => exact absurd rfl hc
  case flag.z => exact absurd rfl hz
  case flag.n => exact absurd rfl hn
  all_goals rfl

theorem kept_enterTrap {p : Place} (hpc : p ≠ .pc) (hsp : p ≠ .sp) (hi : p ≠ .flag .i) (ret : Word)
    (s : State) : p.Kept s (enterTrap ret s) := by
  rw [enterTrap_eq]
  rcases p with _ | _ | _ | _ | _ | (_ | _ | _ | _ | _ | _ | _)
  case pc => exact absurd rfl hpc
  case sp => exact absurd rfl hsp
  case flag.i => exact absurd rfl hi
  all_goals rfl

/-- A handler keeps every place whose column does not list its mnemonic; a store or a shift in
Accumulator mode aside, which can write A. -/
theorem handlerOf_keeps {mn : Mnemonic} {p : Place} {m : Mode} (notWriter : mn ∉ p.writers)
    (notInA : p = .a → ¬ (mn ∈ [.asl, .lsr, .rol, .ror, .stx, .sty] ∧ m = .accumulator)) :
    (handlerOf mn).Keeps p m := by
  cases mn
  case sta => exact fun _ => kept_refl p
  case stx | sty => exact fun acc s => kept_withA (fun isA => notInA isA ⟨by decide, acc⟩) s _
  case asl | lsr | rol | ror =>
    exact ⟨kept_setShifted (ne_of_not_writer notWriter (by decide))
        (ne_of_not_writer notWriter (by decide)) (ne_of_not_writer notWriter (by decide)),
      fun acc v s => kept_withA (fun isA => notInA isA ⟨by decide, acc⟩) s v⟩
  case bcc | bcs | beq | bmi | bne | bpl | bvc | bvs | jmp =>
    exact fun w s => kept_withPc (ne_of_not_writer notWriter (by decide)) s w
  case jsr =>
    exact fun w v s => kept_trans (kept_withPc (ne_of_not_writer notWriter (by decide)) s w)
      (kept_withSp (ne_of_not_writer notWriter (by decide)) _ v)
  case brk =>
    exact fun s => kept_enterTrap (ne_of_not_writer notWriter (by decide))
      (ne_of_not_writer notWriter (by decide)) (ne_of_not_writer notWriter (by decide)) _ s
  all_goals
    simp only [handlerOf, Handler.Keeps]
    intros
    rcases p with _ | _ | _ | _ | _ | (_ | _ | _ | _ | _ | _ | _)
    -- either the place's column lists the mnemonic, or the handler leaves the place as it is
    all_goals first | exact absurd (List.mem_of_elem_eq_true rfl) notWriter | rfl

/-- An execute keeps every place whose column does not list its mnemonic, the stores and shifts in
Accumulator mode aside. -/
theorem exec_kept_place {i : Instr} {p : Place} {s t : State} (executed : exec i s = .next t)
    (notWriter : i.mnemonic ∉ p.writers)
    (notInA : p = .a →
      ¬ (i.mnemonic ∈ [.asl, .lsr, .rol, .ror, .stx, .sty] ∧ i.mode = .accumulator)) :
    p.Kept s t := by
  rw [exec_eq_run] at executed
  exact run_kept (handlerOf_keeps notWriter notInA) executed

/-- STX and STY do not occur in Accumulator mode. -/
theorem store_not_accumulator {i : Instr} (wellFormed : i.wellFormed = true)
    (store : i.mnemonic ∈ [.stx, .sty]) : i.mode ≠ .accumulator := by
  intro acc
  obtain ⟨occurs, -⟩ := Bool.and_eq_true_iff.mp wellFormed
  rw [Instr.modeOccurs, acc] at occurs
  simp only [List.mem_cons, List.not_mem_nil, or_false] at store
  obtain isStx | isSty := store
  · rw [isStx] at occurs
    cases occurs
  · rw [isSty] at occurs
    cases occurs

/-- Settles O56: one place for each column, and the latch, which every execute keeps. -/
theorem registerWriters : Obligations.RegisterWriters := by
  intro i s t executed
  obtain ⟨-, latch, -⟩ := exec_kept executed
  have kept (p : Place) (isNotA : p ≠ .a) (notWriter : i.mnemonic ∉ p.writers) : p.Kept s t :=
    exec_kept_place executed notWriter fun isA => absurd isA isNotA
  exact ⟨kept .pc nofun, kept .sp nofun,
    fun notWriter notInA => exec_kept_place (p := .a) executed notWriter fun _ => notInA,
    store_not_accumulator, kept .x nofun, kept .y nofun, latch⟩

/-! ### The bus -/

/-- The bus `c` is `b` after reads alone: flat RAM is as it was, and every new access is a read. -/
def OnlyReads (b c : Bus) : Prop :=
  c.ram = b.ram ∧ ∃ reads, c.history = reads ++ b.history ∧ ∀ e ∈ reads, e.kind = .read

theorem onlyReads_refl (b : Bus) : OnlyReads b b := ⟨rfl, [], rfl, List.forall_mem_nil _⟩

theorem onlyReads_trans {b c d : Bus} (h : OnlyReads b c) (h' : OnlyReads c d) : OnlyReads b d := by
  obtain ⟨ram, reads, history, areReads⟩ := h
  obtain ⟨ram', reads', history', areReads'⟩ := h'
  refine ⟨ram'.trans ram, reads' ++ reads, by rw [history', history, List.append_assoc], ?_⟩
  exact List.forall_mem_append.mpr ⟨areReads', areReads⟩

theorem readByte_onlyReads (a : Word) (s : State) : OnlyReads s.bus (readByte a s).state.bus :=
  ⟨rfl, [⟨.read, a, s.bus.answer a⟩], rfl, by simp⟩

theorem readWord_onlyReads (a : Word) (s : State) : OnlyReads s.bus (readWord a s).state.bus :=
  onlyReads_trans (readByte_onlyReads a s) (readByte_onlyReads (a + 1) _)

theorem pull_onlyReads (s : State) : OnlyReads s.bus (pull s).state.bus :=
  readByte_onlyReads (stackAddr (s.sp + 1)) { s with sp := s.sp + 1 }

theorem pullWord_onlyReads (s : State) : OnlyReads s.bus (pullWord s).state.bus :=
  onlyReads_trans (pull_onlyReads s) (pull_onlyReads (pull s).state)

theorem returnFromTrap_onlyReads (s : State) : OnlyReads s.bus (returnFromTrap s).bus :=
  onlyReads_trans (pull_onlyReads s) (pullWord_onlyReads { (pull s).state with flags := _ })

/-- R110 to R121: EffAddr only reads, and only its pointer. -/
theorem effAddr_onlyReads {mn : Mnemonic} {m : Mode} {s : State} {r : Resolved}
    (h : effAddr mn m s = .ok r) : OnlyReads s.bus r.state.bus := by
  cases m <;> cases h
  case indirectX => exact readWord_onlyReads _ s
  case indirectY => exact readWord_onlyReads _ s
  all_goals exact onlyReads_refl _

/-- R122: ReadOperand only reads. -/
theorem readOperand_onlyReads {mn : Mnemonic} {m : Mode} {s : State} {r : Operand}
    (h : readOperand mn m s = .ok r) : OnlyReads s.bus r.state.bus := by
  cases resolved : effAddr mn m s with
  | ok e =>
    cases (readOperand_of_effAddr resolved).symm.trans h
    exact onlyReads_trans (effAddr_onlyReads resolved) (readByte_onlyReads e.addr e.state)
  | error f =>
    unfold readOperand at h
    split at h
    · cases h
      exact onlyReads_refl _
    · cases h
      exact onlyReads_refl _
    · rw [resolved] at h
      cases h

/-- What a handler must do for its execute to make reads alone. -/
def Handler.ReadsOnly : Handler → Prop
  | .plain k => ∀ s, OnlyReads s.bus (k s).bus
  | .reading k => ∀ v s, (k v s).bus = s.bus
  | .branching _ | .jumping => True
  | .storing _ | .modifying _ | .shifting _ | .calling => False

/-- A handler that reads only leaves flat RAM, and each of its accesses is a read. -/
theorem run_onlyReads {h : Handler} {mn : Mnemonic} {m : Mode} {s t : State} (reads : h.ReadsOnly)
    (ended : h.run mn m s = .next t) : OnlyReads s.bus t.bus := by
  cases h with
  | plain k =>
    cases ended
    exact reads s
  | reading k =>
    obtain ⟨-, fault⟩ | ⟨-, v, c, b, answered, -, -, completed⟩ := withOperand_cases mn m s k
    · cases fault.symm.trans ended
    · cases completed.symm.trans ended
      exact reads v { s with bus := b } ▸ readOperand_onlyReads answered
  | branching cond =>
    cases m
    case relative o =>
      cases ended
      split <;> exact onlyReads_refl _
    all_goals cases ended
  | jumping =>
    cases m
    case absolute w =>
      cases ended
      exact onlyReads_refl _
    case indirect w =>
      cases ended
      exact readWord_onlyReads w s
    all_goals cases ended
  | storing | modifying | shifting | calling => exact reads.elim

/-- The mnemonics that write to the bus (R56). -/
theorem handlerOf_readsOnly {mn : Mnemonic} (notStoring : mn ∉ ([.sta, .stx, .sty, .inc, .dec, .asl,
    .lsr, .rol, .ror, .jsr, .pha, .php, .brk] : List Mnemonic)) : (handlerOf mn).ReadsOnly := by
  cases mn
  case sta | stx | sty | inc | dec | asl | lsr | rol | ror | jsr | pha | php | brk =>
    exact absurd (by decide) notStoring
  case bcc | bcs | beq | bmi | bne | bpl | bvc | bvs | jmp => trivial
  case adc | sbc | and | ora | eor | cmp | cpx | cpy | bit | lda | ldx | ldy => exact fun _ _ => rfl
  case pla | plp => exact pull_onlyReads
  case rts => exact pullWord_onlyReads
  case rti => exact returnFromTrap_onlyReads
  all_goals exact fun s => onlyReads_refl s.bus

/-- Settles O57: a handler outside the list makes reads alone. -/
theorem onlyStoringInstructionsWrite : Obligations.OnlyStoringInstructionsWrite := by
  intro i s t executed notStoring
  rw [exec_eq_run] at executed
  exact run_onlyReads (handlerOf_readsOnly notStoring) executed

end Sys2Proof.Proofs
end


section
/-! PROOFS. 10_state.md R26, 70_reset_and_hazards.md R286: what no execute depends on. -/

namespace Sys2Proof.Proofs

open Sys2Proof Sys2Proof.Machine Sys2Proof.Stated

/-- The state with its flags, its latch and its earlier count replaced: what the resolver, the bus and
the stack do not look at. -/
def relabel (φ : Flags → Flags) (ι : Option Instruction → Option Instruction)
    (γ : Option Nat → Option Nat) (s : State) : State :=
  { s with flags := φ s.flags, ir := ι s.ir, cycleOut := γ s.cycleOut }

section Relabelled

variable {φ : Flags → Flags} {ι : Option Instruction → Option Instruction}
  {γ : Option Nat → Option Nat}

theorem effAddr_relabel (mn : Mnemonic) (m : Mode) (s : State) :
    effAddr mn m (relabel φ ι γ s) =
      (effAddr mn m s).map fun r => { r with state := relabel φ ι γ r.state } := by
  cases m <;> rfl

theorem readOperand_relabel (mn : Mnemonic) (m : Mode) (s : State) :
    readOperand mn m (relabel φ ι γ s) =
      (readOperand mn m s).map fun r => { r with state := relabel φ ι γ r.state } := by
  unfold readOperand
  rw [effAddr_relabel]
  split
  · rfl
  · rfl
  · cases effAddr mn m s <;> rfl

theorem writeOperand_relabel (mn : Mnemonic) (m : Mode) (v : Byte) (s : State) :
    writeOperand mn m v (relabel φ ι γ s) = (writeOperand mn m v s).map (relabel φ ι γ) := by
  unfold writeOperand
  rw [effAddr_relabel]
  split
  · rfl
  · cases effAddr mn m s <;> rfl

/-- Two functions that agree on two states agree on what execute completes with. -/
def AgreeOnCompletion (h h' : State → State) : Prop :=
  ∀ crossed t t', h t = h' t' →
    h { t with cycleOut := returned t crossed } = h' { t' with cycleOut := returned t' crossed }

/-- What a handler must do for its execute from a relabelled state to end, under `h`, as its execute
from the state itself does under `h'`. -/
def Handler.Agrees (g h h' : State → State) : Handler → Prop
  | .plain k => ∀ s, h (k (g s)) = h' (k s)
  | .reading k => ∀ v s, h (k v (g s)) = h' (k v s)
  | .storing r => (∀ s, r (g s) = r s) ∧ ∀ s, h (g s) = h' s
  | .modifying _ => ∀ v s, h (setZN v (g s)) = h' (setZN v s)
  | .shifting f => (∀ v s, f v (g s).flags.c = f v s.flags.c) ∧
      ∀ r s, h (setShifted r (g s)) = h' (setShifted r s)
  | .branching cond => (∀ s, cond (g s).flags = cond s.flags) ∧ ∀ s, h (g s) = h' s
  | .jumping | .calling => ∀ s, h (g s) = h' s

theorem mapNext_complete {h h' : State → State} (agree : AgreeOnCompletion h h') (crossed : Bool)
    {t t' : State} (same : h t = h' t') :
    mapNext h (complete crossed t) = mapNext h' (complete crossed t') :=
  congrArg Host.Outcome.next (agree crossed t t' same)

theorem modifyMemory_relabel {h h' : State → State} (agree : AgreeOnCompletion h h')
    {k : Byte → State → State} (changes : ∀ v s, h (k v (relabel φ ι γ s)) = h' (k v s))
    (mn : Mnemonic) (m : Mode) (s : State) (f : Byte → Byte) :
    mapNext h (modifyMemory mn m (relabel φ ι γ s) f k) = mapNext h' (modifyMemory mn m s f k) := by
  simp only [modifyMemory, effAddr_relabel]
  cases effAddr mn m s with
  | error => rfl
  | ok r =>
    exact mapNext_complete agree r.crossed (changes (readByte r.addr r.state).value
      (writeByte r.addr (f (readByte r.addr r.state).value) (readByte r.addr r.state).state))

theorem pushWord_relabel (w : Word) (s : State) :
    pushWord w (relabel φ ι γ s) = relabel φ ι γ (pushWord w s) := by
  rw [pushWord_eq, pushWord_eq]
  rfl

/-- A handler that agrees on its shape's changes ends alike from the two states. -/
theorem run_relabel {hd : Handler} {h h' : State → State} (agree : AgreeOnCompletion h h')
    (agrees : hd.Agrees (relabel φ ι γ) h h') (mn : Mnemonic) (m : Mode) (s : State) :
    mapNext h (hd.run mn m (relabel φ ι γ s)) = mapNext h' (hd.run mn m s) := by
  have completes {crossed : Bool} {t t' : State} := mapNext_complete (t := t) (t' := t') agree crossed
  cases hd with
  | plain k => exact completes (agrees s)
  | reading k =>
    simp only [Handler.run, withOperand, readOperand_relabel]
    cases readOperand mn m s with
    | error => rfl
    | ok r => exact completes (agrees _ _)
  | storing r =>
    obtain ⟨sameByte, same⟩ := agrees
    simp only [Handler.run, storeOperand, sameByte, writeOperand_relabel]
    cases writeOperand mn m (r s) s with
    | error => rfl
    | ok t => exact completes (same t)
  | modifying f => exact modifyMemory_relabel agree (fun v s => agrees (f v) s) mn m s f
  | shifting f =>
    obtain ⟨sameCarry, same⟩ := agrees
    by_cases acc : m = .accumulator
    · subst acc
      simp only [Handler.run, readModifyWrite, sameCarry]
      exact completes (same _ { s with a := _ })
    · simp only [Handler.run, readModifyWrite_of_ne_accumulator mn f _ acc, sameCarry]
      exact modifyMemory_relabel agree (fun v t => same (f v s.flags.c) t) mn m s _
  | branching cond =>
    obtain ⟨sameCond, same⟩ := agrees
    simp only [Handler.run, sameCond]
    cases m
    case relative o =>
      cases cond s.flags
      · exact completes (same s)
      · exact completes (same { s with pc := _ })
    all_goals rfl
  | jumping =>
    cases m
    case absolute w => exact completes (agrees { s with pc := w })
    case indirect w => exact completes (agrees { (readWord w s).state with pc := (readWord w s).value })
    all_goals rfl
  | calling =>
    cases m
    case absolute w =>
      have pushed : pushWord ((relabel φ ι γ s).pc - 1) (relabel φ ι γ s) =
          relabel φ ι γ (pushWord (s.pc - 1) s) := pushWord_relabel (s.pc - 1) s
      simp only [Handler.run, execJsr, pushed]
      exact completes (agrees { pushWord (s.pc - 1) s with pc := w })
    all_goals rfl

/-- Trap entry looks at the flags it packs, and sets I. -/
theorem enterTrap_relabel (samePacked : ∀ f, packP true (φ f) = packP true f)
    (keepsI : ∀ f : Flags, { φ f with i := true } = φ { f with i := true }) (ret : Word) (s : State) :
    enterTrap ret (relabel φ ι γ s) = relabel φ ι γ (enterTrap ret s) := by
  rw [enterTrap_eq, enterTrap_eq]
  simp only [relabel, samePacked, keepsI]

end Relabelled

/-- No handler's change of the state looks at the latch or the earlier count. -/
theorem handlerOf_agrees_on_cycles (mn : Mnemonic) (ir : Option Instruction) (n : Option Nat) :
    (handlerOf mn).Agrees (relabel id (fun _ => ir) fun _ => n) (relabel id (fun _ => ir) fun _ => n)
      (relabel id (fun _ => ir) fun _ => n) := by
  cases mn
  case adc | sbc | and | ora | eor | cmp | cpx | cpy | bit | lda | ldx | ldy | inc | dec =>
    exact fun _ _ => rfl
  case sta | stx | sty | bcc | bcs | beq | bmi | bne | bpl | bvc | bvs =>
    exact ⟨fun _ => rfl, fun _ => rfl⟩
  case asl | lsr | rol | ror => exact ⟨fun _ _ => rfl, fun _ _ => rfl⟩
  case brk =>
    intro s
    have trapped := enterTrap_relabel (φ := id) (ι := fun _ => ir) (γ := fun _ => n) (fun _ => rfl)
      (fun _ => rfl) (s.pc + 1) s
    exact (congrArg (relabel id (fun _ => ir) fun _ => n) trapped).trans rfl
  all_goals exact fun _ => rfl

/-- Settles O58: no handler's change of the state looks at the latch or the earlier count, and
replacing them again hides the count it returns. -/
theorem cycleFiguresDecideNothing : Obligations.CycleFiguresDecideNothing := by
  intro i s ir n
  rw [exec_eq_run, exec_eq_run]
  have agree : AgreeOnCompletion (relabel id (fun _ => ir) fun _ => n)
      (relabel id (fun _ => ir) fun _ => n) := fun _ _ _ same => same
  exact run_relabel agree (handlerOf_agrees_on_cycles i.mnemonic ir n) i.mnemonic i.mode s

/-- The flags with one of them set to a value. -/
def setFlag (f : Flag) (x : Bool) (fl : Flags) : Flags :=
  match f with
  | .c => { fl with c := x }
  | .z => { fl with z := x }
  | .i => { fl with i := x }
  | .d => { fl with d := x }
  | .b => { fl with b := x }
  | .v => { fl with v := x }
  | .n => { fl with n := x }

theorem put_eq_relabel (f : Flag) (x : Bool) (s : State) :
    f.put s x = relabel (setFlag f x) id id s := by
  cases f <;> rfl

/-- D17: B is not packed. -/
theorem enterTrap_put_b (ret : Word) (x : Bool) (s : State) :
    enterTrap ret (relabel (setFlag .b x) id id s) = Flag.put (enterTrap ret s) x .b :=
  (enterTrap_relabel (φ := setFlag .b x) (fun _ => rfl) (fun _ => rfl) ret s).trans
    (put_eq_relabel .b x _).symm

/-- A handler whose mnemonic the flag's "read by" column does not list does the same whatever the flag
holds, and leaves it so where it does not write it. -/
theorem handlerOf_agrees_on_flag {mn : Mnemonic} {f : Flag} (notReader : mn ∉ f.readers) (x : Bool) :
    (handlerOf mn).Agrees (relabel (setFlag f x) id id) id
      (fun t => if mn ∈ f.writers then t else f.put t x) := by
  cases mn
  case adc | sbc =>
    cases f
    case c => exact absurd (by decide) notReader
    all_goals exact fun _ _ => rfl
  case rol | ror =>
    cases f
    case c => exact absurd (by decide) notReader
    all_goals exact ⟨fun _ _ => rfl, fun _ _ => rfl⟩
  case bcc | bcs =>
    cases f
    case c => exact absurd (by decide) notReader
    all_goals exact ⟨fun _ => rfl, fun _ => rfl⟩
  case beq | bne =>
    cases f
    case z => exact absurd (by decide) notReader
    all_goals exact ⟨fun _ => rfl, fun _ => rfl⟩
  case bvc | bvs =>
    cases f
    case v => exact absurd (by decide) notReader
    all_goals exact ⟨fun _ => rfl, fun _ => rfl⟩
  case bmi | bpl =>
    cases f
    case n => exact absurd (by decide) notReader
    all_goals exact ⟨fun _ => rfl, fun _ => rfl⟩
  case php =>
    cases f
    case b => exact fun _ => rfl
    all_goals exact absurd (by decide) notReader
  case brk =>
    cases f
    case b => exact fun s => enterTrap_put_b (s.pc + 1) x s
    all_goals exact absurd (by decide) notReader
  case and | ora | eor | cmp | cpx | cpy | bit | lda | ldx | ldy | inc | dec =>
    cases f <;> exact fun _ _ => rfl
  case sta | stx | sty => cases f <;> exact ⟨fun _ => rfl, fun _ => rfl⟩
  case asl | lsr => cases f <;> exact ⟨fun _ _ => rfl, fun _ _ => rfl⟩
  all_goals cases f <;> exact fun _ => rfl

theorem mapNext_id (o : Out) : mapNext id o = o := by
  cases o <;> rfl

/-- The count execute returns does not depend on a flag. -/
theorem agreeOnCompletion_put (mn : Mnemonic) (f : Flag) (x : Bool) :
    AgreeOnCompletion id fun t => if mn ∈ f.writers then t else f.put t x := by
  rintro crossed t t' same
  obtain rfl : t = if mn ∈ f.writers then t' else f.put t' x := same
  split
  · rfl
  · cases f <;> rfl

/-- Settles O55: a flag is kept by every handler that its "written by" column does not list, and
noticed by none that its "read by" column does not list. -/
theorem flagWritersAndReaders : Obligations.FlagWritersAndReaders := by
  intro i s f
  refine ⟨fun notWriter t executed => ?_, fun notReader x => ?_⟩
  · exact exec_kept_place (p := .flag f) executed notWriter nofun
  · have agrees := run_relabel (agreeOnCompletion_put i.mnemonic f x)
      (handlerOf_agrees_on_flag notReader x) i.mnemonic i.mode s
    rwa [mapNext_id, ← put_eq_relabel, ← exec_eq_run, ← exec_eq_run] at agrees

end Sys2Proof.Proofs
end
